-- ==== Sys2Proof/Word.lean ====
section
/-! DEFINITION. The word types of the CORE block (00_scope.md R7, R11) and their plainest arithmetic. -/

namespace Sys2Proof

/-- One memory byte, general register, timer or literal `kk` (R7: REG_W, TIMER_W; R28). -/
abbrev Byte := BitVec 8

/-- An instruction word, I, PC, a stack entry or a fault register (R7: INSN_W, I_W, PC_W, STACK_ENTRY_W). -/
abbrev Word := BitVec 16

/-- A 12-bit address literal `nnn` (R67). -/
abbrev Addr := BitVec 12

/-- One nibble of an instruction word, or the literal `n` (R17, R67). -/
abbrev Nibble := BitVec 4

/-- A general register's index, 0 to 15 (R18). -/
abbrev Reg := Fin 16

/-- The index of VF, the flag register (R19). -/
abbrev VF : Reg := 15

/-- `zext_16` of R11, the only widening the machine has (R72). -/
abbrev zext16 {n : Nat} (b : BitVec n) : Word := b.setWidth 16

end Sys2Proof
end

