-- ==== Sys2Proof/Machine/Flags.lean ====
section
/-! DEFINITION. Every value the spec writes to VF as a flag (R27). -/

namespace Sys2Proof.Machine

/-- Carry out of bit 7: 1 if the exact sum is above 255, else 0 (R88, R93). -/
def carryFlag (a b : Byte) : Byte := if a.toNat + b.toNat > 255 then 1 else 0

/-- Not-borrow of `a - b`: 1 if a is strictly above b, else 0 (R94, R96; 90_conflicts.md C2: equal operands give 0). -/
def aboveFlag (a b : Byte) : Byte := if a.toNat > b.toNat then 1 else 0

/-- The bit a right shift loses, `a & 0x01` (R95). -/
def lowBitFlag (a : Byte) : Byte := a &&& 0x01

/-- The bit a left shift loses, `(a >> 7) & 0x01`, as 0 or 1 (R97). -/
def highBitFlag (a : Byte) : Byte := (a >>> 7) &&& 0x01

/-- The collision result of a draw (R107, R109). -/
def hitFlag (hit : Bool) : Byte := if hit then 1 else 0

end Sys2Proof.Machine
end

