-- ==== Sys2Proof/Syntax.lean ====
section
/-! DEFINITION. The instruction set: one constructor per row of spec/opcode_table.json (R2, R73), its operands the
decoded fields of R67. The field types hold exactly the values R67 allows, so an operand out of range cannot be written. -/

namespace Sys2Proof

/-- The 34 instructions (R73). Each docstring gives the table's pattern, the spec's assembler form (R77) and the rule
that gives the meaning. -/
inductive Instr where
  /-- 00E0, `CLS`: clear the display (R106). -/
  | cls
  /-- 00EE, `RET`: return (R79). -/
  | ret
  /-- 1NNN, `JP nnn`: jump (R80). -/
  | jp (nnn : Addr)
  /-- 2NNN, `CALL nnn`: call (R81). -/
  | call (nnn : Addr)
  /-- 3XKK, `SE Vx, kk`: skip if equal to byte (R82). -/
  | seByte (x : Reg) (kk : Byte)
  /-- 4XKK, `SNE Vx, kk`: skip if not equal to byte (R83). -/
  | sneByte (x : Reg) (kk : Byte)
  /-- 5XY0, `SE Vx, Vy`: skip if registers equal (R84). -/
  | seReg (x y : Reg)
  /-- 6XKK, `LD Vx, kk`: load byte (R87). -/
  | ldByte (x : Reg) (kk : Byte)
  /-- 7XKK, `ADD Vx, kk`: add byte with carry into VF (R88). -/
  | addByte (x : Reg) (kk : Byte)
  /-- 8XY0, `LD Vx, Vy`: copy register (R89). -/
  | ldReg (x y : Reg)
  /-- 8XY1, `OR Vx, Vy` (R90). -/
  | orReg (x y : Reg)
  /-- 8XY2, `AND Vx, Vy` (R91). -/
  | andReg (x y : Reg)
  /-- 8XY3, `XOR Vx, Vy` (R92). -/
  | xorReg (x y : Reg)
  /-- 8XY4, `ADD Vx, Vy`: add registers with carry into VF (R93). -/
  | addReg (x y : Reg)
  /-- 8XY5, `SUB Vx, Vy`: V[x] - V[y], not-borrow into VF (R94). -/
  | sub (x y : Reg)
  /-- 8XY6, `SHR Vx`: shift right; the y field selects nothing (R76, R95). -/
  | shr (x : Reg)
  /-- 8XY7, `SUBN Vx, Vy`: V[y] - V[x], not-borrow into VF (R96). -/
  | subn (x y : Reg)
  /-- 8XYE, `SHL Vx`: shift left; the y field selects nothing (R76, R97). -/
  | shl (x : Reg)
  /-- 9XY0, `SNE Vx, Vy`: skip if registers differ (R85). -/
  | sneReg (x y : Reg)
  /-- ANNN, `LD I, nnn`: load I (R100). -/
  | ldI (nnn : Addr)
  /-- BNNN, `JP V0, nnn`: jump indexed by V0 (R86). -/
  | jpV0 (nnn : Addr)
  /-- CXKK, `RND Vx, kk`: random byte masked by kk (R98). -/
  | rnd (x : Reg) (kk : Byte)
  /-- DXYN, `DRW Vx, Vy, n`: XOR sprite draw (R107). -/
  | drw (x y : Reg) (n : Nibble)
  /-- EX9E, `SKP Vx`: skip if the key is pressed (R110). -/
  | skp (x : Reg)
  /-- EXA1, `SKNP Vx`: skip if the key is not pressed (R111). -/
  | sknp (x : Reg)
  /-- FX07, `LD Vx, DT`: read the delay timer (R112). -/
  | ldVxDt (x : Reg)
  /-- FX0A, `LD Vx, K`: wait for a key (R113). -/
  | ldVxK (x : Reg)
  /-- FX15, `LD DT, Vx`: set the delay timer (R114). -/
  | ldDtVx (x : Reg)
  /-- FX18, `LD ST, Vx`: set the sound timer (R115). -/
  | ldStVx (x : Reg)
  /-- FX1E, `ADD I, Vx`: add to I (R101). -/
  | addIVx (x : Reg)
  /-- FX29, `LD F, Vx`: point I at a glyph (R102). -/
  | ldFVx (x : Reg)
  /-- FX33, `LD B, Vx`: store decimal digits (R103). -/
  | ldBVx (x : Reg)
  /-- FX55, `LD [I], Vx`: store V0..V[x] (R104). -/
  | ldMemVx (x : Reg)
  /-- FX65, `LD Vx, [I]`: load V0..V[x] (R105). -/
  | ldVxMem (x : Reg)
  deriving DecidableEq, Repr

/-- The row of spec/opcode_table.json an instruction stands for, by the table's own name. -/
def Instr.mnemonic : Instr → String
  | .cls => "00E0"
  | .ret => "00EE"
  | .jp _ => "1NNN"
  | .call _ => "2NNN"
  | .seByte _ _ => "3XKK"
  | .sneByte _ _ => "4XKK"
  | .seReg _ _ => "5XY0"
  | .ldByte _ _ => "6XKK"
  | .addByte _ _ => "7XKK"
  | .ldReg _ _ => "8XY0"
  | .orReg _ _ => "8XY1"
  | .andReg _ _ => "8XY2"
  | .xorReg _ _ => "8XY3"
  | .addReg _ _ => "8XY4"
  | .sub _ _ => "8XY5"
  | .shr _ => "8XY6"
  | .subn _ _ => "8XY7"
  | .shl _ => "8XYE"
  | .sneReg _ _ => "9XY0"
  | .ldI _ => "ANNN"
  | .jpV0 _ => "BNNN"
  | .rnd _ _ => "CXKK"
  | .drw _ _ _ => "DXYN"
  | .skp _ => "EX9E"
  | .sknp _ => "EXA1"
  | .ldVxDt _ => "FX07"
  | .ldVxK _ => "FX0A"
  | .ldDtVx _ => "FX15"
  | .ldStVx _ => "FX18"
  | .addIVx _ => "FX1E"
  | .ldFVx _ => "FX29"
  | .ldBVx _ => "FX33"
  | .ldMemVx _ => "FX55"
  | .ldVxMem _ => "FX65"

end Sys2Proof
end

