-- ==== Sys2Proof/WellFormed.lean ====
section
/-! DEFINITION. Well-formedness of an instruction term: every operand lies in the range R67 gives its field (x and y
0 to 15, n 0 to 15, nnn 0 to 0xFFF, kk 0 to 0xFF). The operand types of Sys2Proof/Syntax.lean carry these bounds, so the
check accepts every term and no ill-formed term can be written: Tests/Slice0.lean proves it. -/

namespace Sys2Proof

/-- The range of a register index (R67: `x` and `y` select a register 0..15). -/
def regInRange (x : Reg) : Bool := decide (x.val ≤ 15)

/-- The range of the literal `n` (R67). -/
def nibbleInRange (n : Nibble) : Bool := decide (n.toNat ≤ 15)

/-- The range of `nnn` (R67). -/
def addrInRange (nnn : Addr) : Bool := decide (nnn.toNat ≤ 0xFFF)

/-- The range of `kk` (R67). -/
def byteInRange (kk : Byte) : Bool := decide (kk.toNat ≤ 0xFF)

/-- Every operand is in the range R67 gives its field. -/
def Instr.wellFormed : Instr → Bool
  | .cls | .ret => true
  | .jp nnn | .call nnn | .ldI nnn | .jpV0 nnn => addrInRange nnn
  | .seByte x kk | .sneByte x kk | .ldByte x kk | .addByte x kk | .rnd x kk => regInRange x && byteInRange kk
  | .seReg x y | .sneReg x y | .ldReg x y | .orReg x y | .andReg x y | .xorReg x y | .addReg x y | .sub x y
  | .subn x y => regInRange x && regInRange y
  | .drw x y n => regInRange x && regInRange y && nibbleInRange n
  | .shr x | .shl x | .skp x | .sknp x | .ldVxDt x | .ldVxK x | .ldDtVx x | .ldStVx x | .addIVx x | .ldFVx x
  | .ldBVx x | .ldMemVx x | .ldVxMem x => regInRange x

end Sys2Proof
end

