-- ==== Sys2Proof/Decode.lean ====
section
/-! DEFINITION. Fields, decoder, encoder, assembler text and opcode table (30_encoding.md). The decoder follows the opcode
map R73; the table `opcodeRows` is the spec's match and mask list, and Laws/Decode.lean relates the two. -/

namespace Sys2Proof

/-! ## Fields (R67) -/

/-- `op = insn[15:12]`. -/
def opField (w : Word) : Nibble := w.extractLsb' 12 4

/-- A nibble as a register index (R72). -/
def regOf (b : Nibble) : Reg := b.toFin

/-- A register index as the nibble that encodes it. -/
def regBits (x : Reg) : Nibble := BitVec.ofFin x

/-- `insn[11:8]` as a nibble. -/
def xBits (w : Word) : Nibble := w.extractLsb' 8 4

/-- `insn[7:4]` as a nibble. -/
def yBits (w : Word) : Nibble := w.extractLsb' 4 4

/-- `x = insn[11:8]`, a register index. -/
def xField (w : Word) : Reg := regOf (xBits w)

/-- `y = insn[7:4]`, a register index. -/
def yField (w : Word) : Reg := regOf (yBits w)

/-- `n = insn[3:0]`. -/
def nField (w : Word) : Nibble := w.extractLsb' 0 4

/-- `nnn = insn[11:0]`. -/
def nnnField (w : Word) : Addr := w.extractLsb' 0 12

/-- `kk = insn[7:0]`. -/
def kkField (w : Word) : Byte := w.extractLsb' 0 8

/-! ## Decoder (R68, R73, R74) -/

/-- Why bytes are no instruction: fewer than two of them, or a word of one of the six spaces of R74's table. -/
inductive DecodeReject where
  /-- Fewer than two bytes were given (R70: every instruction is two bytes). -/
  | truncated
  /-- 0x0000..0x0FFF except 0x00E0 and 0x00EE. -/
  | family0
  /-- 0x5XYn with n ≠ 0. -/
  | family5
  /-- 0x8XYn with n in 8, 9, A, B, C, D, F. -/
  | family8
  /-- 0x9XYn with n ≠ 0. -/
  | family9
  /-- 0xEXkk with kk neither 9E nor A1. -/
  | familyE
  /-- 0xFXkk with kk none of 07, 0A, 15, 18, 1E, 29, 33, 55, 65. -/
  | familyF
  deriving DecidableEq, Repr

/-- Family 0 (R73): exactly two words. -/
def decode0 (w : Word) : Except DecodeReject Instr :=
  if w = 0x00E0#16 then .ok .cls
  else if w = 0x00EE#16 then .ok .ret
  else .error .family0

/-- Family 8 (R73): the low nibble selects the row. The y field of 8XY6 and 8XYE is dropped (R76). -/
def decode8 (x y : Reg) (n : Nibble) : Except DecodeReject Instr :=
  if n = 0x0#4 then .ok (.ldReg x y)
  else if n = 0x1#4 then .ok (.orReg x y)
  else if n = 0x2#4 then .ok (.andReg x y)
  else if n = 0x3#4 then .ok (.xorReg x y)
  else if n = 0x4#4 then .ok (.addReg x y)
  else if n = 0x5#4 then .ok (.sub x y)
  else if n = 0x6#4 then .ok (.shr x)
  else if n = 0x7#4 then .ok (.subn x y)
  else if n = 0xE#4 then .ok (.shl x)
  else .error .family8

/-- Family E (R73): the low byte selects the row. -/
def decodeE (x : Reg) (kk : Byte) : Except DecodeReject Instr :=
  if kk = 0x9E#8 then .ok (.skp x)
  else if kk = 0xA1#8 then .ok (.sknp x)
  else .error .familyE

/-- Family F (R73): the low byte selects the row. -/
def decodeF (x : Reg) (kk : Byte) : Except DecodeReject Instr :=
  if kk = 0x07#8 then .ok (.ldVxDt x)
  else if kk = 0x0A#8 then .ok (.ldVxK x)
  else if kk = 0x15#8 then .ok (.ldDtVx x)
  else if kk = 0x18#8 then .ok (.ldStVx x)
  else if kk = 0x1E#8 then .ok (.addIVx x)
  else if kk = 0x29#8 then .ok (.ldFVx x)
  else if kk = 0x33#8 then .ok (.ldBVx x)
  else if kk = 0x55#8 then .ok (.ldMemVx x)
  else if kk = 0x65#8 then .ok (.ldVxMem x)
  else .error .familyF

/-- The instruction a word stands for, or the space of R74 that makes it a decode fault (R68, R73). -/
def decode (w : Word) : Except DecodeReject Instr :=
  if opField w = 0x0#4 then decode0 w
  else if opField w = 0x1#4 then .ok (.jp (nnnField w))
  else if opField w = 0x2#4 then .ok (.call (nnnField w))
  else if opField w = 0x3#4 then .ok (.seByte (xField w) (kkField w))
  else if opField w = 0x4#4 then .ok (.sneByte (xField w) (kkField w))
  else if opField w = 0x5#4 then
    if nField w = 0x0#4 then .ok (.seReg (xField w) (yField w)) else .error .family5
  else if opField w = 0x6#4 then .ok (.ldByte (xField w) (kkField w))
  else if opField w = 0x7#4 then .ok (.addByte (xField w) (kkField w))
  else if opField w = 0x8#4 then decode8 (xField w) (yField w) (nField w)
  else if opField w = 0x9#4 then
    if nField w = 0x0#4 then .ok (.sneReg (xField w) (yField w)) else .error .family9
  else if opField w = 0xA#4 then .ok (.ldI (nnnField w))
  else if opField w = 0xB#4 then .ok (.jpV0 (nnnField w))
  else if opField w = 0xC#4 then .ok (.rnd (xField w) (kkField w))
  else if opField w = 0xD#4 then .ok (.drw (xField w) (yField w) (nField w))
  else if opField w = 0xE#4 then decodeE (xField w) (kkField w)
  else decodeF (xField w) (kkField w)

/-- The 16-bit word of two bytes, the byte at the lower address first and high (R51, R66). -/
def wordOfBytes (hi lo : Byte) : Word := hi ++ lo

/-- The high byte of a word, which memory holds at the lower address (R51). -/
def hiByte (w : Word) : Byte := w.extractLsb' 8 8

/-- The low byte of a word, which memory holds at the higher address (R51). -/
def loByte (w : Word) : Byte := w.extractLsb' 0 8

/-- The decoder over bytes as memory holds them: the instruction of the first two and the rest. -/
def decodeBytes : List Byte → Except DecodeReject (Instr × List Byte)
  | hi :: lo :: rest =>
    match decode (wordOfBytes hi lo) with
    | .ok i => .ok (i, rest)
    | .error e => .error e
  | _ => .error .truncated

/-! ## Encoder (R71) -/

/-- Formats `RR` and `RRN`: op, x, y and the function nibble or n. -/
def wordRRN (op : Nibble) (x y : Reg) (n : Nibble) : Word := op ++ regBits x ++ regBits y ++ n

/-- Formats `RK` and `RF`: op, x and kk or the function byte. -/
def wordRK (op : Nibble) (x : Reg) (kk : Byte) : Word := op ++ regBits x ++ kk

/-- Format `A`: op and nnn. -/
def wordA (op : Nibble) (nnn : Addr) : Word := op ++ nnn

/-- The word of an instruction (R71, R73). 8XY6 and 8XYE are written with y = 0 (R77). -/
def encode : Instr → Word
  | .cls => 0x00E0#16
  | .ret => 0x00EE#16
  | .jp nnn => wordA 0x1#4 nnn
  | .call nnn => wordA 0x2#4 nnn
  | .seByte x kk => wordRK 0x3#4 x kk
  | .sneByte x kk => wordRK 0x4#4 x kk
  | .seReg x y => wordRRN 0x5#4 x y 0x0#4
  | .ldByte x kk => wordRK 0x6#4 x kk
  | .addByte x kk => wordRK 0x7#4 x kk
  | .ldReg x y => wordRRN 0x8#4 x y 0x0#4
  | .orReg x y => wordRRN 0x8#4 x y 0x1#4
  | .andReg x y => wordRRN 0x8#4 x y 0x2#4
  | .xorReg x y => wordRRN 0x8#4 x y 0x3#4
  | .addReg x y => wordRRN 0x8#4 x y 0x4#4
  | .sub x y => wordRRN 0x8#4 x y 0x5#4
  | .shr x => wordRRN 0x8#4 x 0 0x6#4
  | .subn x y => wordRRN 0x8#4 x y 0x7#4
  | .shl x => wordRRN 0x8#4 x 0 0xE#4
  | .sneReg x y => wordRRN 0x9#4 x y 0x0#4
  | .ldI nnn => wordA 0xA#4 nnn
  | .jpV0 nnn => wordA 0xB#4 nnn
  | .rnd x kk => wordRK 0xC#4 x kk
  | .drw x y n => wordRRN 0xD#4 x y n
  | .skp x => wordRK 0xE#4 x 0x9E#8
  | .sknp x => wordRK 0xE#4 x 0xA1#8
  | .ldVxDt x => wordRK 0xF#4 x 0x07#8
  | .ldVxK x => wordRK 0xF#4 x 0x0A#8
  | .ldDtVx x => wordRK 0xF#4 x 0x15#8
  | .ldStVx x => wordRK 0xF#4 x 0x18#8
  | .addIVx x => wordRK 0xF#4 x 0x1E#8
  | .ldFVx x => wordRK 0xF#4 x 0x29#8
  | .ldBVx x => wordRK 0xF#4 x 0x33#8
  | .ldMemVx x => wordRK 0xF#4 x 0x55#8
  | .ldVxMem x => wordRK 0xF#4 x 0x65#8

/-- The two bytes of an instruction in memory order (R51). -/
def encodeBytes (i : Instr) : List Byte := [hiByte (encode i), loByte (encode i)]

/-! ## Assembler text (R77) -/

/-- One hexadecimal digit. -/
def hexDigit (n : Nibble) : String :=
  ["0", "1", "2", "3", "4", "5", "6", "7", "8", "9", "A", "B", "C", "D", "E", "F"].getD n.toNat ""

/-- A register's name, `V0`..`VF`. -/
def regText (x : Reg) : String := "V" ++ hexDigit (regBits x)

/-- A byte in hex. -/
def byteText (b : Byte) : String := "0x" ++ hexDigit (b.extractLsb' 4 4) ++ hexDigit (b.extractLsb' 0 4)

/-- An address in hex. -/
def addrText (a : Addr) : String :=
  "0x" ++ hexDigit (a.extractLsb' 8 4) ++ hexDigit (a.extractLsb' 4 4) ++ hexDigit (a.extractLsb' 0 4)

/-- The row count of DXYN in decimal, as the spec's programs write it. -/
def countText (n : Nibble) : String := if n.toNat < 10 then hexDigit n else "1" ++ hexDigit (n - 10)

/-- A mnemonic with two operands. -/
def text2 (m a b : String) : String := m ++ " " ++ a ++ ", " ++ b

/-- The conventional syntax of an instruction (R77). It carries no meaning of its own. -/
def Instr.text : Instr → String
  | .cls => "CLS"
  | .ret => "RET"
  | .jp nnn => "JP " ++ addrText nnn
  | .call nnn => "CALL " ++ addrText nnn
  | .seByte x kk => text2 "SE" (regText x) (byteText kk)
  | .sneByte x kk => text2 "SNE" (regText x) (byteText kk)
  | .seReg x y => text2 "SE" (regText x) (regText y)
  | .ldByte x kk => text2 "LD" (regText x) (byteText kk)
  | .addByte x kk => text2 "ADD" (regText x) (byteText kk)
  | .ldReg x y => text2 "LD" (regText x) (regText y)
  | .orReg x y => text2 "OR" (regText x) (regText y)
  | .andReg x y => text2 "AND" (regText x) (regText y)
  | .xorReg x y => text2 "XOR" (regText x) (regText y)
  | .addReg x y => text2 "ADD" (regText x) (regText y)
  | .sub x y => text2 "SUB" (regText x) (regText y)
  | .shr x => "SHR " ++ regText x
  | .subn x y => text2 "SUBN" (regText x) (regText y)
  | .shl x => "SHL " ++ regText x
  | .sneReg x y => text2 "SNE" (regText x) (regText y)
  | .ldI nnn => text2 "LD" "I" (addrText nnn)
  | .jpV0 nnn => text2 "JP" "V0" (addrText nnn)
  | .rnd x kk => text2 "RND" (regText x) (byteText kk)
  | .drw x y n => text2 "DRW" (regText x) (regText y ++ ", " ++ countText n)
  | .skp x => "SKP " ++ regText x
  | .sknp x => "SKNP " ++ regText x
  | .ldVxDt x => text2 "LD" (regText x) "DT"
  | .ldVxK x => text2 "LD" (regText x) "K"
  | .ldDtVx x => text2 "LD" "DT" (regText x)
  | .ldStVx x => text2 "LD" "ST" (regText x)
  | .addIVx x => text2 "ADD" "I" (regText x)
  | .ldFVx x => text2 "LD" "F" (regText x)
  | .ldBVx x => text2 "LD" "B" (regText x)
  | .ldMemVx x => text2 "LD" "[I]" (regText x)
  | .ldVxMem x => text2 "LD" (regText x) "[I]"

/-- The bytes of an image of instructions, high byte first (R51, R77). -/
def assemble (is : List Instr) : List Byte := is.flatMap encodeBytes

/-! ## The opcode table as match and mask (R68) -/

/-- One row of spec/opcode_table.json. -/
structure OpcodeRow where
  /-- The row's "mnemonic". -/
  mnemonic : String
  /-- The row's "match". -/
  pattern : Word
  /-- The row's "mask". -/
  mask : Word
  deriving DecidableEq, Repr

/-- `insn & mask = match` (R68). -/
def OpcodeRow.selects (r : OpcodeRow) (w : Word) : Bool := decide (w &&& r.mask = r.pattern)

/-- The rows of families 0 to 7. -/
def opcodeRowsLow : List OpcodeRow :=
  [⟨"00E0", 0x00E0#16, 0xFFFF#16⟩, ⟨"00EE", 0x00EE#16, 0xFFFF#16⟩, ⟨"1NNN", 0x1000#16, 0xF000#16⟩,
   ⟨"2NNN", 0x2000#16, 0xF000#16⟩, ⟨"3XKK", 0x3000#16, 0xF000#16⟩, ⟨"4XKK", 0x4000#16, 0xF000#16⟩,
   ⟨"5XY0", 0x5000#16, 0xF00F#16⟩, ⟨"6XKK", 0x6000#16, 0xF000#16⟩, ⟨"7XKK", 0x7000#16, 0xF000#16⟩]

/-- The rows of family 8. -/
def opcodeRows8 : List OpcodeRow :=
  [⟨"8XY0", 0x8000#16, 0xF00F#16⟩, ⟨"8XY1", 0x8001#16, 0xF00F#16⟩, ⟨"8XY2", 0x8002#16, 0xF00F#16⟩,
   ⟨"8XY3", 0x8003#16, 0xF00F#16⟩, ⟨"8XY4", 0x8004#16, 0xF00F#16⟩, ⟨"8XY5", 0x8005#16, 0xF00F#16⟩,
   ⟨"8XY6", 0x8006#16, 0xF00F#16⟩, ⟨"8XY7", 0x8007#16, 0xF00F#16⟩, ⟨"8XYE", 0x800E#16, 0xF00F#16⟩]

/-- The rows of families 9 to F. -/
def opcodeRowsHigh : List OpcodeRow :=
  [⟨"9XY0", 0x9000#16, 0xF00F#16⟩, ⟨"ANNN", 0xA000#16, 0xF000#16⟩, ⟨"BNNN", 0xB000#16, 0xF000#16⟩,
   ⟨"CXKK", 0xC000#16, 0xF000#16⟩, ⟨"DXYN", 0xD000#16, 0xF000#16⟩, ⟨"EX9E", 0xE09E#16, 0xF0FF#16⟩,
   ⟨"EXA1", 0xE0A1#16, 0xF0FF#16⟩, ⟨"FX07", 0xF007#16, 0xF0FF#16⟩, ⟨"FX0A", 0xF00A#16, 0xF0FF#16⟩,
   ⟨"FX15", 0xF015#16, 0xF0FF#16⟩, ⟨"FX18", 0xF018#16, 0xF0FF#16⟩, ⟨"FX1E", 0xF01E#16, 0xF0FF#16⟩,
   ⟨"FX29", 0xF029#16, 0xF0FF#16⟩, ⟨"FX33", 0xF033#16, 0xF0FF#16⟩, ⟨"FX55", 0xF055#16, 0xF0FF#16⟩,
   ⟨"FX65", 0xF065#16, 0xF0FF#16⟩]

/-- The 34 rows of spec/opcode_table.json (R73). -/
def opcodeRows : List OpcodeRow := opcodeRowsLow ++ (opcodeRows8 ++ opcodeRowsHigh)

/-! ## The opcode table's words -/

/-- The instruction the decoder reads from the table word `w` of `nbits` bits: the word is laid out as memory stores it,
high byte first, and the bits above `nbits` are 0. -/
def decodeTableWord (nbits w : Nat) : Option Instr :=
  match decodeBytes [hiByte (BitVec.ofNat 16 (w % 2 ^ nbits)), loByte (BitVec.ofNat 16 (w % 2 ^ nbits))] with
  | .ok (i, _) => some i
  | .error _ => none

end Sys2Proof
end

