-- ==== Sys2Proof/Config.lean ====
section
/-! DEFINITION. The implementation parameters of R7 that the model names, and the free values: what the host drives on
the input ports when the model's state lines up no input for the cycle. -/

namespace Sys2Proof.Config

/-- MEM_SIZE, 4096 bytes (R7): an address is in range when it is below this (R49). -/
abbrev memSize : Nat := 0x1000

/-- LOAD_BASE, the reset PC and the image's first address (R7). -/
abbrev loadBase : Nat := 0x200

/-- MAX_IMAGE, the largest program image (R7). -/
abbrev maxImage : Nat := 3584

/-- STACK_DEPTH (R7). -/
abbrev stackDepth : Nat := 16

/-- GLYPH_BYTES (R7). -/
abbrev glyphBytes : Nat := 5

/-- DISP_W (R7). -/
abbrev dispW : Nat := 64

/-- DISP_H (R7). -/
abbrev dispH : Nat := 32

/-- FREE VALUE: the `keys_in` mask of the n-th strobe (R46, R48: the host may supply any key mask; entry 2). -/
opaque keysIn : Nat → BitVec 16

/-- FREE VALUE: the `rnd_in` byte of the n-th strobe (R10: a free 8-bit draw on every cycle, under no law; entry 2). -/
opaque rndIn : Nat → Byte

/-- FREE VALUE: the draw behind KEY_SELECT in the n-th strobe (R9: a draw among the pressed keys; entry 2). -/
opaque keyDraw : Nat → Nat

end Sys2Proof.Config
end

