-- ==== Sys2Proof/Machine/State.lean ====
section
/-! DEFINITION. The state of the block (10_state.md R45), the reasons a step could stop, and the state after reset. -/

namespace Sys2Proof.Machine

/-- Memory M (R28): a list of address and byte pairs in one canonical form (`Memory.wf` of Machine/Ops.lean). An address
that is not listed reads as its reset content (`unlisted` of Machine/Font.lean). -/
abbrev Memory := List Host.Cell

/-- The display DISP (R32): 32 rows of 64 one-bit pixels. Bit x of row y is the pixel at column x, row y, which is
element y × 64 + x of the row-major snapshot. -/
abbrev Display := Vector (BitVec 64) 32

/-- The values of FAULT_CAUSE (R40, R116). The values 7 to 255 are never written, so no constructor stands for them. -/
inductive FaultCause where
  /-- 0: no fault. -/
  | none
  /-- 1: the fetched word matches no row of the opcode table (R117). -/
  | decode
  /-- 2: PC above 0xFFE at fetch (R118). -/
  | fetchOob
  /-- 3: a data access through I above 0xFFF (R119). -/
  | memOob
  /-- 4: 2NNN with SP = 16 (R120). -/
  | stackOverflow
  /-- 5: 00EE with SP = 0 (R121). -/
  | stackUnderflow
  /-- 6: EX9E or EXA1 with V[x] above 15 (R122). -/
  | keyIndex
  deriving DecidableEq, Repr

/-- What the host supplies with one strobe (R46, R48): no state of the block, but the model's input. -/
structure StrobeInput where
  /-- `keys_in`: bit k is 1 when logical key k is pressed. -/
  keys : BitVec 16
  /-- `rnd_in`, the RND byte (R10). -/
  rnd : Byte
  /-- The draw behind KEY_SELECT (R9): it picks one of the pressed keys (entry 2). -/
  pick : Nat
  deriving DecidableEq, Repr

/-- The whole state. The fields down to `faultInfo` are those of R45. `started` is the bit that R46 and R137 imply, and
`inputs` and `draws` are the model's own (entries 2 and 3). -/
structure State where
  /-- V[0]..V[15] (R18). -/
  v : Vector Byte 16
  /-- I (R21). -/
  i : Word
  /-- PC (R23). -/
  pc : Word
  /-- SP, 0 to 16, 0 = empty (R31). -/
  sp : Fin 17
  /-- STACK[0]..STACK[15] (R30). -/
  stack : Vector Word 16
  /-- DT (R35). -/
  dt : Byte
  /-- ST (R36). -/
  st : Byte
  /-- M (R28). -/
  mem : Memory
  /-- DISP (R32). -/
  disp : Display
  /-- REDRAW (R33). -/
  redraw : Bool
  /-- KEYS, bit k = logical key k pressed (R34). -/
  keys : BitVec 16
  /-- SNDX (R37). -/
  sndx : Bool
  /-- WAITING (R38). -/
  waiting : Bool
  /-- FAULT_CAUSE (R40). -/
  faultCause : FaultCause
  /-- FAULT_PC (R41). -/
  faultPc : Word
  /-- FAULT_INSN (R42). -/
  faultInsn : Word
  /-- FAULT_INFO (R43). -/
  faultInfo : Word
  /-- A cycle has run since reset, so the load port is ignored (R46, R137). -/
  started : Bool
  /-- The model's own: the strobe inputs the host has lined up, the next strobe's first. -/
  inputs : List StrobeInput
  /-- The model's own: the argument of the free values `Config.keysIn`, `Config.rndIn` and `Config.keyDraw`. -/
  draws : Nat
  deriving DecidableEq, Repr

/-- The reasons a step stops with a fault: none. Every fault of the spec is a next state, the halted block of R124 and
R63, so nobody raises one; an empty type is safe, since it takes no behaviour away. -/
inductive Fault : Type
  deriving DecidableEq, Repr

/-- The reasons a step is refused. -/
inductive Refusal where
  /-- An instruction with no meaning yet, by its mnemonic. Nobody raises it: every instruction has its meaning. Safe. -/
  | notModelled (mnemonic : String)
  deriving DecidableEq, Repr

/-- Reset (R45, R135): every field at the value the spec gives. `mem` lists nothing, so memory reads as the glyph table
at 0x000..0x04F and 0 elsewhere. -/
def State.reset : State where
  v := Vector.replicate 16 0
  i := 0
  pc := 0x200
  sp := 0
  stack := Vector.replicate 16 0
  dt := 0
  st := 0
  mem := []
  disp := Vector.replicate 32 0
  redraw := false
  keys := 0
  sndx := false
  waiting := false
  faultCause := .none
  faultPc := 0
  faultInsn := 0
  faultInfo := 0
  started := false
  inputs := []
  draws := 0

end Sys2Proof.Machine
end

