-- ==== Sys2Proof/Machine/Font.lean ====
section
/-! DEFINITION. The glyph table (R29) and what an address of memory that no cell lists reads as. -/

namespace Sys2Proof.Machine

/-- The default of the parameter FONT (R8, R29), glyphs 0 to 7. PRESUMED: the bytes are general knowledge in the spec
itself (entry 1). -/
def defaultFontLow : List Byte :=
  [0xF0, 0x90, 0x90, 0x90, 0xF0] ++ [0x20, 0x60, 0x20, 0x20, 0x70] ++ [0xF0, 0x10, 0xF0, 0x80, 0xF0] ++
  [0xF0, 0x10, 0xF0, 0x10, 0xF0] ++ [0x90, 0x90, 0xF0, 0x10, 0x10] ++ [0xF0, 0x80, 0xF0, 0x10, 0xF0] ++
  [0xF0, 0x80, 0xF0, 0x90, 0xF0] ++ [0xF0, 0x10, 0x20, 0x40, 0x40]

/-- The default of the parameter FONT, glyphs 8 to F (entry 1). -/
def defaultFontHigh : List Byte :=
  [0xF0, 0x90, 0xF0, 0x90, 0xF0] ++ [0xF0, 0x90, 0xF0, 0x10, 0xF0] ++ [0xF0, 0x90, 0xF0, 0x90, 0x90] ++
  [0xE0, 0x90, 0xE0, 0x90, 0xE0] ++ [0xF0, 0x80, 0x80, 0x80, 0xF0] ++ [0xE0, 0x90, 0x90, 0x90, 0xE0] ++
  [0xF0, 0x80, 0xF0, 0x80, 0xF0] ++ [0xF0, 0x80, 0xF0, 0x80, 0x80]

/-- The 80 bytes of the default FONT (R29). -/
def defaultFont : List Byte := defaultFontLow ++ defaultFontHigh

/-- The default FONT as the parameter's value (R8). -/
def defaultFontVector : Vector Byte 80 := ⟨defaultFont.toArray, rfl⟩

/-- What an address that no cell lists reads as: memory's reset content (R45, R54), the glyph table at 0x000..0x04F and
0 above it. -/
def unlisted (a : Nat) : Byte := defaultFont.getD a 0

end Sys2Proof.Machine
end

