-- ==== Sys2Proof/Machine/Operands.lean ====
section
/-! DEFINITION. The operand forms: general registers (R18, R72), the host's input ports (R46) and the keypad slots
(R34). -/

namespace Sys2Proof.Machine

/-- `V[x]` (R12). -/
def State.getV (s : State) (x : Reg) : Byte := s.v[x]

/-- `V[x] <- b` (R12). No register is hardwired (R18). -/
def State.setV (s : State) (x : Reg) (b : Byte) : State := { s with v := s.v.set x b }

/-- `VF <- b` (R19). -/
def State.setVF (s : State) (b : Byte) : State := s.setV VF b

/-- `V[0]..V[x]`, in order (R104, R105). -/
def State.regsUpTo (s : State) (x : Reg) : List Byte := s.v.toList.take (x.val + 1)

/-- The `keys_in` port in this strobe (R46): the host's next lined-up input, else a free value (entry 2). -/
def State.keysIn (s : State) : BitVec 16 :=
  match s.inputs with
  | [] => Config.keysIn s.draws
  | e :: _ => e.keys

/-- The `rnd_in` port in this strobe, RND (R10, R65). The host holds it stable for the cycle (R48). -/
def State.rndIn (s : State) : Byte :=
  match s.inputs with
  | [] => Config.rndIn s.draws
  | e :: _ => e.rnd

/-- The draw behind KEY_SELECT in this strobe (R9). -/
def State.keyPick (s : State) : Nat :=
  match s.inputs with
  | [] => Config.keyDraw s.draws
  | e :: _ => e.pick

/-- `KEYS[k] = 1` (R34). -/
def State.keyPressed (s : State) (k : Nat) : Bool := s.keys.getLsbD k

/-- The pressed keys, lowest first. -/
def pressedKeys (keys : BitVec 16) : List Nat := (List.range 16).filter (fun k => keys.getLsbD k)

/-- KEY_SELECT (R9): one of the pressed keys `ks`, picked by a draw. Draw 0 is the lowest, the choice of the spec's
deterministic simulator. -/
def keySelect (draw : Nat) (ks : List Nat) : Nat := ks.getD (draw % ks.length) 0

end Sys2Proof.Machine
end

