-- ==== Sys2Proof/Machine/Ops.lean ====
section
/-! DEFINITION. The shared operations: memory (20_memory.md), the PC policies (R24), the call stack (R31), and taking a
fault (R124). There is no return from a fault (R125). -/

namespace Sys2Proof.Machine

/-! ## Memory -/

/-- The canonical form: addresses below 4096 (R28) and strictly rising, and no cell equal to what its address reads as
unlisted. -/
def Memory.wf : Memory → Bool
  | [] => true
  | (k, b) :: m => decide (k < Config.memSize) && decide (b ≠ unlisted k) && m.all (fun c => decide (k < c.1)) && Memory.wf m

/-- `M[a]` (R13). -/
def Memory.read : Memory → Nat → Byte
  | [], a => unlisted a
  | (k, b) :: m, a => if k = a then b else Memory.read m a

/-- The memory with address `a` unlisted. -/
def Memory.without (m : Memory) (a : Nat) : Memory := m.filter (fun c => decide (c.1 ≠ a))

/-- Insert a cell before the first cell of a higher address. -/
def Memory.place : Memory → Nat → Byte → Memory
  | [], a, b => [(a, b)]
  | (k, c) :: m, a, b => if a < k then (a, b) :: (k, c) :: m else (k, c) :: Memory.place m a b

/-- `M[a] <- b` (R13), in canonical form: writing what the address reads as unlisted leaves it unlisted. -/
def Memory.write (m : Memory) (a : Nat) (b : Byte) : Memory :=
  if b = unlisted a then m.without a else (m.without a).place a b

/-- `M[a] <- b0; M[a + 1] <- b1; ...`, in order (R58). -/
def Memory.writeBytes : Memory → Nat → List Byte → Memory
  | m, _, [] => m
  | m, a, b :: bs => (m.write a b).writeBytes (a + 1) bs

/-- `MemRead(a, 1)` (R13). -/
def State.read (s : State) (a : Nat) : Byte := s.mem.read a

/-- The store of consecutive bytes from `a` on (R13, R53). -/
def State.writeBytes (s : State) (a : Nat) (bs : List Byte) : State := { s with mem := s.mem.writeBytes a bs }

/-- The address check of `n` consecutive bytes from `base` (R49, R50, R56): nothing when all are in range, else the
lowest out-of-range address. The addresses are exact integers. -/
def outOfRange (base n : Nat) : Option Nat :=
  if n = 0 ∨ base + n ≤ Config.memSize then none else some (max base Config.memSize)

/-! ## Program counter (R24) -/

/-- "advance 1": `PC <- PC + 2`. -/
def State.advance (s : State) : State := { s with pc := s.pc + 2 }

/-- "skip or advance": `PC <- PC + 4` if the condition holds, else `PC + 2` (R78). -/
def State.skipIf (s : State) (c : Bool) : State := { s with pc := if c then s.pc + 4 else s.pc + 2 }

/-- "jump": `PC <- target`, exact and unchecked (R26, R78). -/
def State.jump (s : State) (target : Word) : State := { s with pc := target }

/-! ## Taking a fault (R124) -/

/-- HALTED is `FAULT_CAUSE ≠ 0` (R39). -/
def State.halted (s : State) : Bool := decide (s.faultCause ≠ .none)

/-- The code of a cause in the 8-bit register FAULT_CAUSE (R40, R116). -/
def FaultCause.code : FaultCause → Byte
  | .none => 0
  | .decode => 1
  | .fetchOob => 2
  | .memOob => 3
  | .stackOverflow => 4
  | .stackUnderflow => 5
  | .keyIndex => 6

/-- Fault entry (R124): the four fault registers are latched from the cause, PC, the fetched word and the info, WAITING
is cleared, and nothing else is written. -/
def raiseFault (cause : FaultCause) (insn info : Word) (s : State) : State :=
  { s with faultCause := cause, faultPc := s.pc, faultInsn := insn, faultInfo := info, waiting := false }

/-- An access of the instruction `i` to the `n` bytes from I on (R49, R50): MEM_OOB with the lowest out-of-range address
if any is out of range, else `k`, the rest of the instruction. FAULT_INSN is the instruction's own word: the four rows
that access memory have no ignored bit, so that word is the fetched one (R42, entry 4). -/
def withDataRange (i : Instr) (n : Nat) (s : State) (k : State → State) : State :=
  match outOfRange s.i.toNat n with
  | some a => raiseFault .memOob (encode i) (BitVec.ofNat 16 a) s
  | none => k s

/-- A key index held in a register (R110, R111): KEY_INDEX if it is above 15 (R122), else `k`, the rest of the
instruction. -/
def withKeyIndex (i : Instr) (index : Byte) (s : State) (k : State → State) : State :=
  if index.toNat > 15 then raiseFault .keyIndex (encode i) (zext16 index) s else k s

/-! ## Call stack (R31) -/

/-- Push: `STACK[SP] <- entry; SP <- SP + 1`, with STACK_OVERFLOW at SP = 16 (R81, R120), then `k`. -/
def withPush (i : Instr) (entry : Word) (s : State) (k : State → State) : State :=
  if h : s.sp.val < 16 then
    k { s with stack := s.stack.set s.sp.val entry, sp := ⟨s.sp.val + 1, by omega⟩ }
  else raiseFault .stackOverflow (encode i) 16 s

/-- Pop: `SP <- SP - 1`, then the entry STACK[SP] for `k`, with STACK_UNDERFLOW at SP = 0 (R79, R121). The popped entry
stays in the array. -/
def withPop (i : Instr) (s : State) (k : Word → State → State) : State :=
  if h : s.sp.val = 0 then raiseFault .stackUnderflow (encode i) 0 s
  else k (s.stack[s.sp.val - 1]'(by omega)) { s with sp := ⟨s.sp.val - 1, by omega⟩ }

end Sys2Proof.Machine
end

