-- ==== Sys2Proof/Machine/Alu.lean ====
section
/-! DEFINITION. Register loads, ALU operations and the random byte (41_alu.md). The register writes of a meaning run in
the order its rule lists them, each reading the registers as the previous one left them (R14). -/

namespace Sys2Proof.Machine

/-- 6XKK (R87): `V[x] <- kk`. -/
def execLdByte (x : Reg) (kk : Byte) (s : State) : Host.Outcome State Fault Refusal :=
  .next (s.setV x kk).advance

/-- 7XKK (R88): `V[x] <- u8(V[x] + kk)`, then VF <- carry. -/
def execAddByte (x : Reg) (kk : Byte) (s : State) : Host.Outcome State Fault Refusal :=
  .next ((s.setV x (s.getV x + kk)).setVF (carryFlag (s.getV x) kk)).advance

/-- 8XY0 (R89): `V[x] <- V[y]`. -/
def execLdReg (x y : Reg) (s : State) : Host.Outcome State Fault Refusal :=
  .next (s.setV x (s.getV y)).advance

/-- 8XY1 (R90): `V[x] <- V[x] | V[y]`. -/
def execOrReg (x y : Reg) (s : State) : Host.Outcome State Fault Refusal :=
  .next (s.setV x (s.getV x ||| s.getV y)).advance

/-- 8XY2 (R91): `V[x] <- V[x] & V[y]`. -/
def execAndReg (x y : Reg) (s : State) : Host.Outcome State Fault Refusal :=
  .next (s.setV x (s.getV x &&& s.getV y)).advance

/-- 8XY3 (R92): `V[x] <- V[x] ^ V[y]`. -/
def execXorReg (x y : Reg) (s : State) : Host.Outcome State Fault Refusal :=
  .next (s.setV x (s.getV x ^^^ s.getV y)).advance

/-- 8XY4 (R93): `V[x] <- u8(V[x] + V[y])`, then VF <- carry. The sum is formed before any write. -/
def execAddReg (x y : Reg) (s : State) : Host.Outcome State Fault Refusal :=
  .next ((s.setV x (s.getV x + s.getV y)).setVF (carryFlag (s.getV x) (s.getV y))).advance

/-- The second line of R94 and the end of 8XY5, on the state its flag write leaves. -/
def subAfterFlag (x y : Reg) (s : State) : State := (s.setV x (s.getV x - s.getV y)).advance

/-- 8XY5 (R94): VF <- (V[x] > V[y]), then `V[x] <- V[x] - V[y]`, which reads after the VF write. -/
def execSub (x y : Reg) (s : State) : Host.Outcome State Fault Refusal :=
  .next (subAfterFlag x y (s.setVF (aboveFlag (s.getV x) (s.getV y))))

/-- The second line of R95 and the end of 8XY6, on the state its flag write leaves. -/
def shrAfterFlag (x : Reg) (s : State) : State := (s.setV x (s.getV x >>> 1)).advance

/-- 8XY6 (R95): VF <- bit 0 of V[x], then `V[x] <- V[x] >> 1`, which reads after the VF write. -/
def execShr (x : Reg) (s : State) : Host.Outcome State Fault Refusal :=
  .next (shrAfterFlag x (s.setVF (lowBitFlag (s.getV x))))

/-- The second line of R96 and the end of 8XY7, on the state its flag write leaves. -/
def subnAfterFlag (x y : Reg) (s : State) : State := (s.setV x (s.getV y - s.getV x)).advance

/-- 8XY7 (R96): VF <- (V[y] > V[x]), then `V[x] <- V[y] - V[x]`, which reads after the VF write. -/
def execSubn (x y : Reg) (s : State) : Host.Outcome State Fault Refusal :=
  .next (subnAfterFlag x y (s.setVF (aboveFlag (s.getV y) (s.getV x))))

/-- The second line of R97 and the end of 8XYE, on the state its flag write leaves. -/
def shlAfterFlag (x : Reg) (s : State) : State := (s.setV x (s.getV x <<< 1)).advance

/-- 8XYE (R97): VF <- bit 7 of V[x] as 0 or 1, then `V[x] <- u8(V[x] << 1)`, which reads after the VF write. -/
def execShl (x : Reg) (s : State) : Host.Outcome State Fault Refusal :=
  .next (shlAfterFlag x (s.setVF (highBitFlag (s.getV x))))

/-- CXKK (R98): `V[x] <- RND & kk`. -/
def execRnd (x : Reg) (kk : Byte) (s : State) : Host.Outcome State Fault Refusal :=
  .next (s.setV x (s.rndIn &&& kk)).advance

end Sys2Proof.Machine
end

