-- ==== Sys2Proof/Machine/Flow.lean ====
section
/-! DEFINITION. Control transfer (40_flow.md). `s.pc` is the address of the instruction being executed (R23). -/

namespace Sys2Proof.Machine

/-- 00EE (R79): pop a return address into PC. -/
def execRet (s : State) : Host.Outcome State Fault Refusal :=
  .next (withPop .ret s (fun entry t => t.jump entry))

/-- 1NNN (R80): `PC <- zext_16(nnn)`. -/
def execJp (nnn : Addr) (s : State) : Host.Outcome State Fault Refusal :=
  .next (s.jump (zext16 nnn))

/-- 2NNN (R81): push PC + 2 and jump to nnn. -/
def execCall (nnn : Addr) (s : State) : Host.Outcome State Fault Refusal :=
  .next (withPush (.call nnn) (s.pc + 2) s (fun t => t.jump (zext16 nnn)))

/-- 3XKK (R82): skip if `V[x] = kk`. -/
def execSeByte (x : Reg) (kk : Byte) (s : State) : Host.Outcome State Fault Refusal :=
  .next (s.skipIf (s.getV x == kk))

/-- 4XKK (R83): skip if `V[x] ≠ kk`. -/
def execSneByte (x : Reg) (kk : Byte) (s : State) : Host.Outcome State Fault Refusal :=
  .next (s.skipIf (s.getV x != kk))

/-- 5XY0 (R84): skip if `V[x] = V[y]`. -/
def execSeReg (x y : Reg) (s : State) : Host.Outcome State Fault Refusal :=
  .next (s.skipIf (s.getV x == s.getV y))

/-- 9XY0 (R85): skip if `V[x] ≠ V[y]`. -/
def execSneReg (x y : Reg) (s : State) : Host.Outcome State Fault Refusal :=
  .next (s.skipIf (s.getV x != s.getV y))

/-- BNNN (R86): `PC <- zext_16(V[0]) + zext_16(nnn)`. -/
def execJpV0 (nnn : Addr) (s : State) : Host.Outcome State Fault Refusal :=
  .next (s.jump (zext16 (s.getV 0) + zext16 nnn))

end Sys2Proof.Machine
end

