-- ==== Sys2Proof/Machine/IndexMemory.lean ====
section
/-! DEFINITION. Index register and memory transfer (42_index_memory.md). -/

namespace Sys2Proof.Machine

/-- `I <- w`. -/
def State.setI (s : State) (w : Word) : State := { s with i := w }

/-- ANNN (R100): `I <- zext_16(nnn)`. -/
def execLdI (nnn : Addr) (s : State) : Host.Outcome State Fault Refusal :=
  .next (s.setI (zext16 nnn)).advance

/-- FX1E (R101): `I <- u16(I + V[x])`. -/
def execAddIVx (x : Reg) (s : State) : Host.Outcome State Fault Refusal :=
  .next (s.setI (s.i + zext16 (s.getV x))).advance

/-- FX29 (R102): `I <- V[x] × 5`, not masked. -/
def execLdFVx (x : Reg) (s : State) : Host.Outcome State Fault Refusal :=
  .next (s.setI (zext16 (s.getV x) * 5)).advance

/-- The hundreds, tens and ones of a byte (R103). -/
def decimalDigits (b : Byte) : List Byte := [b / 100, b / 10 % 10, b % 10]

/-- FX33 (R103): store the three decimal digits of V[x] at I, I + 1, I + 2. -/
def execLdBVx (x : Reg) (s : State) : Host.Outcome State Fault Refusal :=
  .next (withDataRange (.ldBVx x) 3 s (fun t => (t.writeBytes t.i.toNat (decimalDigits (t.getV x))).advance))

/-- FX55 (R104): store V[0]..V[x] at I. I is unchanged. -/
def execLdMemVx (x : Reg) (s : State) : Host.Outcome State Fault Refusal :=
  .next (withDataRange (.ldMemVx x) (x.val + 1) s (fun t => (t.writeBytes t.i.toNat (t.regsUpTo x)).advance))

/-- `V[r] <- MemRead(I + r, 1)` on the register file `v` (R105). -/
def State.loadReg (s : State) (v : Vector Byte 16) (r : Nat) : Vector Byte 16 :=
  v.setIfInBounds r (s.read (s.i.toNat + r))

/-- `for r in 0..x: V[r] <- MemRead(I + r, 1)` (R105). -/
def State.loadRegsUpTo (s : State) (x : Reg) : State :=
  { s with v := (List.range (x.val + 1)).foldl s.loadReg s.v }

/-- FX65 (R105): load V[0]..V[x] from I. I is unchanged. -/
def execLdVxMem (x : Reg) (s : State) : Host.Outcome State Fault Refusal :=
  .next (withDataRange (.ldVxMem x) (x.val + 1) s (fun t => (t.loadRegsUpTo x).advance))

end Sys2Proof.Machine
end

