-- ==== Sys2Proof/Machine/KeypadTimer.lean ====
section
/-! DEFINITION. The keypad and timer instructions (44_keypad_timer.md). -/

namespace Sys2Proof.Machine

/-- EX9E (R110): skip if `KEYS[V[x]] = 1`; KEY_INDEX if V[x] > 15. -/
def execSkp (x : Reg) (s : State) : Host.Outcome State Fault Refusal :=
  .next (withKeyIndex (.skp x) (s.getV x) s (fun t => t.skipIf (t.keyPressed (t.getV x).toNat)))

/-- EXA1 (R111): skip if `KEYS[V[x]] = 0`; KEY_INDEX if V[x] > 15. -/
def execSknp (x : Reg) (s : State) : Host.Outcome State Fault Refusal :=
  .next (withKeyIndex (.sknp x) (s.getV x) s (fun t => t.skipIf (!t.keyPressed (t.getV x).toNat)))

/-- FX07 (R112): `V[x] <- DT`. -/
def execLdVxDt (x : Reg) (s : State) : Host.Outcome State Fault Refusal :=
  .next (s.setV x s.dt).advance

/-- FX0A (R113): with no key pressed nothing is written and PC stays; else V[x] <- KEY_SELECT(KEYS) and PC advances.
The cycle's epilogue sets WAITING (R69). -/
def execLdVxK (x : Reg) (s : State) : Host.Outcome State Fault Refusal :=
  .next (match pressedKeys s.keys with
    | [] => s
    | k :: ks => (s.setV x (BitVec.ofNat 8 (keySelect s.keyPick (k :: ks)))).advance)

/-- FX15 (R114): `DT <- V[x]`. -/
def execLdDtVx (x : Reg) (s : State) : Host.Outcome State Fault Refusal :=
  .next { s with dt := s.getV x }.advance

/-- FX18 (R115): `ST <- V[x]`. -/
def execLdStVx (x : Reg) (s : State) : Host.Outcome State Fault Refusal :=
  .next { s with st := s.getV x }.advance

end Sys2Proof.Machine
end

