-- ==== Sys2Proof/Machine/Sprite.lean ====
section
/-! DEFINITION. Pixels and the XOR sprite engine (R32, R107 to R109). -/

namespace Sys2Proof.Machine

/-- `DISP[x][y]` (R32). -/
def Display.pixel (d : Display) (x : Fin 64) (y : Fin 32) : Bool := d[y].getLsbD x.val

/-- `DISP[x][y] <- DISP[x][y] ^ s` (R109). -/
def Display.xorPixel (d : Display) (x : Fin 64) (y : Fin 32) (s : Bool) : Display :=
  d.set y (d[y] ^^^ (if s then BitVec.twoPow 64 x.val else 0))

/-- The all-off display (R106). -/
def Display.blank : Display := Vector.replicate 32 0

/-- A column number reduced modulo 64 (R108). -/
def wrapX (n : Nat) : Fin 64 := ⟨n % 64, Nat.mod_lt _ (by decide)⟩

/-- A row number reduced modulo 32 (R108). -/
def wrapY (n : Nat) : Fin 32 := ⟨n % 32, Nat.mod_lt _ (by decide)⟩

/-- A sprite byte's bit for column `c` of its row, the most significant bit leftmost (R107). -/
def spriteBit (b : Byte) (c : Nat) : Bool := b.getLsbD (7 - c)

/-- The body of the pixel loop (R107): bit (r, c) of the sprite at (cx, cy), on the display and the collision so far. -/
def drawBit (cx cy : Nat) (b : Byte) (r : Nat) (acc : Display × Bool) (c : Nat) : Display × Bool :=
  (acc.1.xorPixel (wrapX (cx + c)) (wrapY (cy + r)) (spriteBit b c),
   acc.2 || (spriteBit b c && acc.1.pixel (wrapX (cx + c)) (wrapY (cy + r))))

/-- One row of the sprite, columns 0 to 7 (R107). -/
def drawRow (cx cy : Nat) (acc : Display × Bool) (b : Byte) (r : Nat) : Display × Bool :=
  (List.range 8).foldl (drawBit cx cy b r) acc

/-- The draw loop (R107): row r, for r in 0..n-1, has the byte `rows r`. The collision starts from 0 (R109). -/
def drawSprite (cx cy : Nat) (rows : Nat → Byte) (n : Nat) (d : Display) : Display × Bool :=
  (List.range n).foldl (fun acc r => drawRow cx cy acc (rows r) r) (d, false)

/-- The row-major snapshot port `disp_out`: element y × 64 + x is the pixel (x, y) (R32, R46). -/
def State.dispOut (s : State) (k : Fin 2048) : Bool :=
  Display.pixel s.disp (wrapX k.val) (wrapY (k.val / 64))

end Sys2Proof.Machine
end

