-- ==== Sys2Proof/Machine/Screen.lean ====
section
/-! DEFINITION. The display instructions (43_display.md). -/

namespace Sys2Proof.Machine

/-- 00E0 (R106): every pixel off, REDRAW <- 1. -/
def execCls (s : State) : Host.Outcome State Fault Refusal :=
  .next { s with disp := Display.blank, redraw := true }.advance

/-- The writes of a draw (R107): the display, VF and REDRAW, from the display and the collision the loop left. -/
def State.showDraw (s : State) (drawn : Display × Bool) : State :=
  { s with disp := drawn.1, redraw := true }.setVF (hitFlag drawn.2)

/-- The draw of R107 once its addresses are checked. V[x], V[y] and I are read before any write. -/
def State.draw (s : State) (x y : Reg) (n : Nibble) : State :=
  s.showDraw (drawSprite (s.getV x).toNat (s.getV y).toNat (fun r => s.read (s.i.toNat + r)) n.toNat s.disp)

/-- DXYN (R107): draw an n-row sprite from memory at I onto (V[x], V[y]), collision into VF. -/
def execDrw (x y : Reg) (n : Nibble) (s : State) : Host.Outcome State Fault Refusal :=
  .next (withDataRange (.drw x y n) n.toNat s (fun t => (t.draw x y n).advance))

end Sys2Proof.Machine
end

