-- ==== Sys2Proof/Machine/Cycle.lean ====
section
/-! DEFINITION. The parts of a cycle around execute (30_encoding.md R64 to R69) and the timer tick (R128, R129). -/

namespace Sys2Proof.Machine

/-- Prologue (R65): REDRAW and SNDX are cleared and KEYS is loaded. RND needs no latch: the port is stable (R48). -/
def prologue (s : State) : State := { s with redraw := false, sndx := false, keys := s.keysIn }

/-- Fetch (R66): the word at PC and PC + 1, high byte first, or the lowest out-of-range fetch address. -/
def fetch (s : State) : Except Nat Word :=
  match outOfRange s.pc.toNat 2 with
  | some a => .error a
  | none => .ok (wordOfBytes (s.read s.pc.toNat) (s.read (s.pc.toNat + 1)))

/-- The delay timer's tick (R128). -/
def tickDelay (s : State) : State := if s.dt.toNat > 0 then { s with dt := s.dt - 1 } else s

/-- The sound timer's tick and expiry (R129). -/
def tickSound (s : State) : State :=
  if s.st.toNat > 0 then { s with sndx := if s.st = 1 then true else s.sndx, st := s.st - 1 } else s

/-- `Tick()`: the delay timer, then the sound timer (R69, R129). -/
def tick (s : State) : State := tickSound (tickDelay s)

/-- The row is FX0A, the only instruction that waits (R69, R127). -/
def isKeyWait : Instr → Bool
  | .ldVxK _ => true
  | _ => false

/-- Epilogue (R69): WAITING is 1 if the row was FX0A and no key is pressed, else 0, and then the timers tick. -/
def epilogue (i : Instr) (s : State) : State := tick { s with waiting := isKeyWait i && decide (s.keys = 0) }

/-- The end of a strobe on the host's side: the strobe's input is used up (entry 2), and the load port is closed
(R137, entry 3). -/
def endStrobe (s : State) : State := { s with started := true, inputs := s.inputs.tail, draws := s.draws + 1 }

/-- The rest of a cycle after execute: the epilogue, unless execute took a fault (R64, R69). -/
def retire (i : Instr) : Host.Outcome State Fault Refusal → Host.Outcome State Fault Refusal
  | .next t => .next (endStrobe (if t.halted then t else epilogue i t))
  | .fault f => .fault f
  | .refused r => .refused r

/-- Fetch, decode, execute and epilogue (R64) from the state the prologue left. The first stage that fails takes the
fault (R123). -/
def runCycle (s : State) : Host.Outcome State Fault Refusal :=
  match fetch s with
  | .error a => .next (endStrobe (raiseFault .fetchOob 0 (BitVec.ofNat 16 a) s))
  | .ok w =>
    match decode w with
    | .error _ => .next (endStrobe (raiseFault .decode w 0 s))
    | .ok i => retire i (exec i s)

/-- Two bytes written where the next cycle fetches, high byte first (R51); nothing where a fetch would fault (R66). -/
def State.placeWord (s : State) (w : Word) : State :=
  if s.pc.toNat + 2 ≤ Config.memSize then s.writeBytes s.pc.toNat [hiByte w, loByte w] else s

end Sys2Proof.Machine
end

