-- ==== Sys2Proof/Machine/HostPort.lean ====
section
/-! DEFINITION. What the host does between cycles (R46 to R48): reset, the image load port, and the parameter FONT. -/

namespace Sys2Proof.Machine

/-- The reset state of a block whose parameter FONT is `font` (R8, R45). -/
def State.resetWith (font : Vector Byte 80) : State := State.reset.writeBytes 0 font.toList

/-- `rst` asserted between cycles on a block whose parameter FONT is `font` (R8, R48, R135): every piece of the block's
state at its reset value. What the host drives next is not the block's and stays (entry 2). -/
def State.assertReset (font : Vector Byte 80) (s : State) : State :=
  { State.resetWith font with inputs := s.inputs, draws := s.draws }

/-- One write through the load port, `load_we` with a 12-bit address and a byte, ignored once a cycle has run since
reset (R46, R137). -/
def State.loadByte (s : State) (a : Addr) (b : Byte) : State :=
  if s.started then s else s.writeBytes a.toNat [b]

/-- The image load (R137): byte j goes to M[0x200 + j] through the load port. A longer image than 3584 bytes is refused
by the loader outside the block. -/
def State.loadImage (s : State) (image : List Byte) : Option State :=
  if image.length ≤ Config.maxImage then
    some (if s.started then s else s.writeBytes Config.loadBase image)
  else none

/-- The host lines up the inputs of the coming strobes (R46, R48). -/
def State.drive (s : State) (inputs : List StrobeInput) : State := { s with inputs := inputs }

end Sys2Proof.Machine
end

