-- ==== Sys2Proof/Machine/Step.lean ====
section
/-! DEFINITION. One step: one strobe of `step`, one cycle (R64, R143). -/

namespace Sys2Proof.Machine

/-- `Cycle(keys_in, rnd_in)` (R64). A halted block does nothing (R63). -/
def step (s : State) : Host.Outcome State Fault Refusal :=
  if s.halted then .next s else runCycle (prologue s)

/-- `s` with the table word `w` of `nbits` bits stored where the next cycle fetches (R66). -/
def State.withFetchWord (s : State) (nbits w : Nat) : State := s.placeWord (BitVec.ofNat 16 (w % 2 ^ nbits))

end Sys2Proof.Machine
end

