-- ==== Sys2Proof/Safety.lean ====
section
/-! DEFINITION. What claims are stated in: the invariant of the machine, what the fault registers mean, the register
write sets of R20, when each instruction faults, and the shape of a sprite. -/

namespace Sys2Proof.Machine

/-- A safe state is one that has taken no fault: the block still runs (R39). -/
def State.Safe (s : State) : Prop := s.faultCause = .none

/-- The block's invariant. Each clause is a fact the spec states of every state a run reaches. -/
structure State.Inv (s : State) : Prop where
  /-- Memory keeps its canonical form, 4096 bytes (R28). -/
  mem_wf : s.mem.wf = true
  /-- Every write of PC is exact and stays at or below 0x10FE (R26). -/
  pc_le : s.pc.toNat ≤ 0x10FE
  /-- A stack entry is at most 0x1000 (R26). -/
  stack_le : ∀ j : Fin 16, s.stack[j].toNat ≤ 0x1000
  /-- While the block runs the fault registers hold their reset values (R39, R44: written only by a fault). -/
  running : s.faultCause = .none → s.faultPc = 0 ∧ s.faultInsn = 0 ∧ s.faultInfo = 0
  /-- A halted block shows REDRAW = SNDX = WAITING = 0, and PC is the address of the faulting instruction (R124). -/
  stopped : s.faultCause ≠ .none → s.redraw = false ∧ s.sndx = false ∧ s.waiting = false ∧ s.faultPc = s.pc
  /-- WAITING says that the last cycle was an FX0A that saw no key pressed (R38, R69), so it drew nothing. -/
  waits : s.waiting = true → s.keys = 0 ∧ s.redraw = false

/-- The word at PC, the byte at the lower address high (R51). -/
def State.wordAtPc (s : State) : Word := s.read s.pc.toNat ++ s.read (s.pc.toNat + 1)

/-- FAULT_INSN and FAULT_INFO are what R42, R43 and R116 say for the latched cause: for every cause but FETCH_OOB a word
was fetched and FAULT_INSN is that word, the one at PC. -/
def State.FaultRegsDescribe (s : State) : Prop :=
  (s.faultCause ≠ .none → s.faultCause ≠ .fetchOob → s.pc.toNat ≤ 0xFFE ∧ s.faultInsn = s.wordAtPc) ∧
  match s.faultCause with
  | .none => True
  | .decode => s.faultInfo = 0 ∧ ∃ e, decode s.faultInsn = .error e
  | .fetchOob => s.faultInsn = 0 ∧ 0xFFE < s.pc.toNat ∧ s.faultInfo.toNat = max s.pc.toNat 0x1000
  | .memOob => s.faultInfo.toNat = max s.i.toNat 0x1000 ∧
      ∃ i, s.faultInsn = encode i ∧ ((∃ x y n, i = .drw x y n) ∨ (∃ x, i = .ldBVx x) ∨ (∃ x, i = .ldMemVx x) ∨
        ∃ x, i = .ldVxMem x)
  | .stackOverflow => s.sp = 16 ∧ s.faultInfo = 16 ∧ ∃ nnn, s.faultInsn = encode (.call nnn)
  | .stackUnderflow => s.sp = 0 ∧ s.faultInfo = 0 ∧ s.faultInsn = encode .ret
  | .keyIndex => ∃ x, 15 < (s.getV x).toNat ∧ s.faultInfo = zext16 (s.getV x) ∧
      (s.faultInsn = encode (.skp x) ∨ s.faultInsn = encode (.sknp x))

/-- The "writes" column of R20: whether instruction `i` may write general register `r`. -/
def writesReg : Instr → Reg → Bool
  | .cls, _ | .ret, _ | .jp _, _ | .call _, _ | .ldI _, _ | .seByte _ _, _ | .sneByte _ _, _ | .seReg _ _, _
  | .sneReg _ _, _ | .jpV0 _, _ | .skp _, _ | .sknp _, _ | .ldDtVx _, _ | .ldStVx _, _ | .addIVx _, _ | .ldFVx _, _
  | .ldBVx _, _ | .ldMemVx _, _ => false
  | .ldByte x _, r | .ldReg x _, r | .orReg x _, r | .andReg x _, r | .xorReg x _, r | .rnd x _, r | .ldVxDt x, r
  | .ldVxK x, r => decide (r = x)
  | .addByte x _, r | .addReg x _, r | .sub x _, r | .subn x _, r | .shr x, r | .shl x, r => decide (r = x ∨ r = VF)
  | .drw _ _ _, r => decide (r = VF)
  | .ldVxMem x, r => decide (r.val ≤ x.val)

/-- The only instructions that write the display and set REDRAW (R32, R33). -/
def drawsDisplay : Instr → Bool
  | .cls | .drw _ _ _ => true
  | _ => false

/-- The only cause an instruction can raise in execute (R123); `none` for the others. -/
def faultOf : Instr → FaultCause
  | .call _ => .stackOverflow
  | .ret => .stackUnderflow
  | .skp _ | .sknp _ => .keyIndex
  | .drw _ _ _ | .ldBVx _ | .ldMemVx _ | .ldVxMem _ => .memOob
  | _ => .none

/-- When an instruction takes its fault in execute (R116, R119 to R122): the stack is full or empty, the key index is
above 15, or the access runs past 0xFFF. -/
def faultsOn (s : State) : Instr → Prop
  | .call _ => s.sp = 16
  | .ret => s.sp = 0
  | .skp x | .sknp x => 15 < (s.getV x).toNat
  | .drw _ _ n => 0 < n.toNat ∧ 0xFFF < s.i.toNat + (n.toNat - 1)
  | .ldBVx _ => 0xFFF < s.i.toNat + 2
  | .ldMemVx x | .ldVxMem x => 0xFFF < s.i.toNat + x.val
  | _ => False

/-- Whether the sprite of `n` rows `rows` at (cx, cy) has a set bit on the pixel (px, py), by where that pixel lies from
the sprite's corner on the 64 × 32 torus (R107, R108). Bit 7 of a row's byte is its leftmost column. -/
def spriteCovers (cx cy : Nat) (rows : Nat → Byte) (n : Nat) (px : Fin 64) (py : Fin 32) : Bool :=
  decide ((py.val + 32 - cy % 32) % 32 < n) && decide ((px.val + 64 - cx % 64) % 64 < 8) &&
    (rows ((py.val + 32 - cy % 32) % 32)).getLsbD (7 - (px.val + 64 - cx % 64) % 64)

/-- The state after k cycles (R143): k steps of the machine, as `Host.Core.run` takes them (Laws/Cycle.lean). -/
def afterCycles : Nat → State → Option State
  | 0, s => some s
  | k + 1, s =>
    match step s with
    | .next t => afterCycles k t
    | .fault _ => none
    | .refused _ => none

/-- The instruction the next cycle fetches and decodes, if it runs one. -/
def nextInstr (s : State) : Option Instr :=
  match fetch s with
  | .error _ => none
  | .ok w =>
    match decode w with
    | .error _ => none
    | .ok i => some i

end Sys2Proof.Machine
end

