-- ==== Sys2Proof/Certificates/Slice0/Obligations.lean ====
section
/-! DEFINITION. The statements for the provers. Each docstring names the rules of spec/ it formalises. -/

open Sys2Proof Sys2Proof.Machine

/-! ## Encoding -/

/-- R67, R71: the decoder reads back every encoded instruction, from its word and from its bytes in memory. -/
def Obligations.DecodeReadsBackEncode : Prop :=
  ∀ (i : Instr) (rest : List Byte), i.wellFormed = true →
    decode (encode i) = .ok i ∧ decodeBytes (encodeBytes i ++ rest) = .ok (i, rest)

/-- R76: in 8XY6 and 8XYE every value of y decodes to the same instruction; every other legal word is the encoding of
what it decodes to, so every other field is used or fixed. That a shift's term has no y and its encoding y = 0 follows R77
and is the model's reading (entry 12). -/
def Obligations.OnlyShiftsIgnoreAField : Prop :=
  (∀ x y : Reg, decode (0x8#4 ++ regBits x ++ regBits y ++ 0x6#4 : Word) = .ok (.shr x) ∧
    decode (0x8#4 ++ regBits x ++ regBits y ++ 0xE#4 : Word) = .ok (.shl x)) ∧
  ∀ (w : Word) (i : Instr), decode w = .ok i →
    ((∀ x, i ≠ .shr x ∧ i ≠ .shl x) → encode i = w) ∧
    (∀ x, i = .shr x ∨ i = .shl x → encode i = w &&& 0xFF0F#16)

/-- R68: the decoder answers an instruction exactly for the words a row of the opcode table selects by its match and
mask, the instruction is that row's, and no word is selected by two rows. -/
def Obligations.DecoderFollowsTheOpcodeTable : Prop :=
  (∀ (w : Word) (i : Instr), decode w = .ok i → ∃ r ∈ opcodeRows, r.selects w = true ∧ r.mnemonic = i.mnemonic) ∧
  (∀ (w : Word), ∀ r ∈ opcodeRows, r.selects w = true → ∃ i, decode w = .ok i ∧ i.mnemonic = r.mnemonic) ∧
  (∀ (w : Word), ∀ r ∈ opcodeRows, ∀ r' ∈ opcodeRows, r.selects w = true → r'.selects w = true → r = r')

/-- R74: the illegal words, by the arithmetic of their hex digits. -/
def Obligations.IllegalWordsAreThoseOfTheTable : Prop :=
  ∀ w : Word, (∃ e, decode w = .error e) ↔
    (w.toNat / 4096 = 0x0 ∧ w.toNat ≠ 0x00E0 ∧ w.toNat ≠ 0x00EE) ∨
    (w.toNat / 4096 = 0x5 ∧ w.toNat % 16 ≠ 0) ∨
    (w.toNat / 4096 = 0x8 ∧ w.toNat % 16 ∈ [0x8, 0x9, 0xA, 0xB, 0xC, 0xD, 0xF]) ∨
    (w.toNat / 4096 = 0x9 ∧ w.toNat % 16 ≠ 0) ∨
    (w.toNat / 4096 = 0xE ∧ w.toNat % 256 ∉ [0x9E, 0xA1]) ∨
    (w.toNat / 4096 = 0xF ∧ w.toNat % 256 ∉ [0x07, 0x0A, 0x15, 0x18, 0x1E, 0x29, 0x33, 0x55, 0x65])

/-- R71, R73: a word of each format, written out bit by bit, decodes to its instruction. -/
def Obligations.WordsOfEachFormatDecode : Prop :=
  decode 0b0000000011100000#16 = .ok .cls ∧ decode 0b0001001000110100#16 = .ok (.jp 0x234) ∧
  decode 0b0110101000101011#16 = .ok (.ldByte 10 0x2B) ∧ decode 0b1000000100100101#16 = .ok (.sub 1 2) ∧
  decode 0b1101001100010101#16 = .ok (.drw 3 1 5) ∧ decode 0b1111001101010101#16 = .ok (.ldMemVx 3)

/-! ## The cycle -/

/-- R51, R64, R65, R66, R69: a cycle of a running block whose bytes at PC decode to `i` is the prologue, then exec of `i`,
then, when no fault was taken, WAITING and the timer ticks. `started`, `inputs` and `draws` are the model's own (entries 2
and 3). -/
def Obligations.StepRunsTheDecodedInstruction : Prop :=
  ∀ (s t : State) (i : Instr), s.faultCause = .none → s.pc.toNat ≤ 0xFFE →
    decode (s.read s.pc.toNat ++ s.read (s.pc.toNat + 1) : Word) = .ok i →
    exec i { s with redraw := false, sndx := false, keys := s.keysIn } = .next t →
    (t.faultCause = .none → step s = .next { t with
      waiting := decide (i.mnemonic = "FX0A" ∧ t.keys = 0)
      dt := if t.dt = 0 then 0 else t.dt - 1
      sndx := t.sndx || decide (t.st = 1)
      st := if t.st = 0 then 0 else t.st - 1
      started := true, inputs := s.inputs.tail, draws := s.draws + 1 }) ∧
    (t.faultCause ≠ .none → step s = .next { t with
      started := true, inputs := s.inputs.tail, draws := s.draws + 1 })

/-- R63: a halted block ignores any number of strobes. The model's own fields `inputs` and `draws` stay as well (entry 2). -/
def Obligations.HaltedBlockIgnoresStrobes : Prop :=
  ∀ (s : State) (k : Nat), s.faultCause ≠ .none → afterCycles k s = some s

/-- R66, R118: a fetch above 0xFFE takes FETCH_OOB with the lowest out-of-range address and no instruction word.
`started`, `inputs` and `draws` are the model's own (entries 2 and 3). -/
def Obligations.FetchAboveMemoryFaults : Prop :=
  ∀ s : State, s.faultCause = .none → 0xFFE < s.pc.toNat →
    step s = .next { s with
      redraw := false, sndx := false, keys := s.keysIn, waiting := false
      faultCause := .fetchOob, faultPc := s.pc, faultInsn := 0, faultInfo := BitVec.ofNat 16 (max s.pc.toNat 0x1000)
      started := true, inputs := s.inputs.tail, draws := s.draws + 1 }

/-- R51, R68, R117: a word that is no instruction takes DECODE and is latched in FAULT_INSN. `started`, `inputs` and
`draws` are the model's own (entries 2 and 3). -/
def Obligations.IllegalWordTakesTheDecodeFault : Prop :=
  ∀ (s : State) (e : DecodeReject), s.faultCause = .none → s.pc.toNat ≤ 0xFFE →
    decode (s.read s.pc.toNat ++ s.read (s.pc.toNat + 1) : Word) = .error e →
    step s = .next { s with
      redraw := false, sndx := false, keys := s.keysIn, waiting := false
      faultCause := .decode, faultPc := s.pc
      faultInsn := (s.read s.pc.toNat ++ s.read (s.pc.toNat + 1) : Word), faultInfo := 0
      started := true, inputs := s.inputs.tail, draws := s.draws + 1 }

/-- R143, R124: no step and no execute of the model stops. That a fault is a next state, in which the block is halted, is
the model's way of holding R124 and R63 (entry 6). -/
def Obligations.EveryStepAnswersANextState : Prop :=
  (∀ s : State, ∃ t, step s = .next t) ∧ ∀ (i : Instr) (s : State), ∃ t, exec i s = .next t

/-- R26, R28, R39, R69, R124: every step keeps the invariant. -/
def Obligations.EveryStepKeepsTheInvariant : Prop :=
  ∀ s t : State, s.Inv → step s = .next t → t.Inv

/-- R45, R135: the reset state meets the invariant. -/
def Obligations.InvariantHoldsAtReset : Prop := State.reset.Inv

/-- R124: a fault is precise. A cycle that faults leaves everything as the prologue left it but the fault registers and
WAITING, and the model's own fields (entries 2 and 3). -/
def Obligations.FaultsArePrecise : Prop :=
  ∀ s t : State, s.faultCause = .none → step s = .next t → t.faultCause ≠ .none →
    t = { s with
      redraw := false, sndx := false, keys := s.keysIn, waiting := false
      faultCause := t.faultCause, faultPc := s.pc, faultInsn := t.faultInsn, faultInfo := t.faultInfo
      started := true, inputs := s.inputs.tail, draws := s.draws + 1 }

/-- R42, R43, R116: after every step FAULT_INSN is the word fetched at PC (0 for FETCH_OOB) and FAULT_INFO is what its
rule says for the latched cause. -/
def Obligations.FaultRegistersDescribeTheFault : Prop :=
  ∀ s t : State, s.FaultRegsDescribe → step s = .next t → t.FaultRegsDescribe

/-- R116, R123: an instruction faults in execute exactly on its own condition, and only with its own cause. -/
def Obligations.InstructionsFaultOnlyTheirOwnWay : Prop :=
  ∀ (i : Instr) (s t : State), s.faultCause = .none → exec i s = .next t →
    (t.faultCause ≠ .none ↔ faultsOn s i) ∧ (t.faultCause ≠ .none → t.faultCause = faultOf i)

/-- R119 to R122, R124: DXYN, FX33, FX55 and FX65 past 0xFFF, 2NNN at SP = 16, 00EE at SP = 0 and a key index above 15
write the fault registers and WAITING and nothing else. FAULT_INSN is the instruction's encoding (entry 4). -/
def Obligations.ExecuteFaultsWriteOnlyTheFaultRegisters : Prop :=
  (∀ (i : Instr) (s : State), faultOf i = .memOob → faultsOn s i → exec i s = .next { s with
    faultCause := .memOob, faultPc := s.pc, faultInsn := encode i
    faultInfo := BitVec.ofNat 16 (max s.i.toNat 0x1000), waiting := false }) ∧
  (∀ (nnn : Addr) (s : State), s.sp = 16 → exec (.call nnn) s = .next { s with
    faultCause := .stackOverflow, faultPc := s.pc, faultInsn := encode (.call nnn), faultInfo := 16
    waiting := false }) ∧
  (∀ s : State, s.sp = 0 → exec .ret s = .next { s with
    faultCause := .stackUnderflow, faultPc := s.pc, faultInsn := 0x00EE, faultInfo := 0, waiting := false }) ∧
  (∀ (x : Reg) (s : State), 15 < (s.getV x).toNat →
    exec (.skp x) s = .next { s with
      faultCause := .keyIndex, faultPc := s.pc, faultInsn := encode (.skp x), faultInfo := zext16 (s.getV x)
      waiting := false } ∧
    exec (.sknp x) s = .next { s with
      faultCause := .keyIndex, faultPc := s.pc, faultInsn := encode (.sknp x), faultInfo := zext16 (s.getV x)
      waiting := false })

/-- R69, R128, R35, R114: in every cycle that completes, DT, or what FX15 wrote there, goes down by one and stops at
0. -/
def Obligations.DelayTimerTicksEveryCompletedCycle : Prop :=
  ∀ (s t : State) (i : Instr), s.faultCause = .none → nextInstr s = some i → step s = .next t →
    t.faultCause = .none →
    (∀ x, i = .ldDtVx x → t.dt.toNat = (s.getV x).toNat - 1) ∧
    ((∀ x, i ≠ .ldDtVx x) → t.dt.toNat = s.dt.toNat - 1)

/-- R129, R37: ST ticks likewise, and SNDX is 1 after exactly the cycles whose tick takes ST from 1 to 0. -/
def Obligations.SoundTimerTicksAndSignalsExpiry : Prop :=
  ∀ (s t : State) (i : Instr), s.faultCause = .none → nextInstr s = some i → step s = .next t →
    t.faultCause = .none →
    (∀ x, i = .ldStVx x → t.st.toNat = (s.getV x).toNat - 1 ∧ t.sndx = decide (s.getV x = 1)) ∧
    ((∀ x, i ≠ .ldStVx x) → t.st.toNat = s.st.toNat - 1 ∧ t.sndx = decide (s.st = 1))

/-- R33: REDRAW after a cycle says whether the cycle ran 00E0 or DXYN to its end. -/
def Obligations.RedrawSaysWhetherTheCycleDrew : Prop :=
  ∀ s t : State, s.faultCause = .none → step s = .next t →
    (t.redraw = true ↔ t.faultCause = .none ∧ ∃ i, nextInstr s = some i ∧ drawsDisplay i = true)

/-- R38, R69: WAITING after a cycle says whether the cycle ran FX0A with no key pressed. -/
def Obligations.WaitingSaysWhetherTheCycleWaited : Prop :=
  ∀ s t : State, s.faultCause = .none → step s = .next t →
    (t.waiting = true ↔ s.keysIn = 0 ∧ ∃ x, nextInstr s = some (.ldVxK x))

/-- R34, R65: every cycle of a running block loads KEYS from `keys_in`, and no instruction writes KEYS.
`State.keysIn` is the model's input port (entry 2). -/
def Obligations.KeysAreTheSnapshotOfTheCycle : Prop :=
  (∀ s t : State, s.faultCause = .none → step s = .next t → t.keys = s.keysIn) ∧
  ∀ (i : Instr) (s t : State), exec i s = .next t → t.keys = s.keys

/-! ## What each instruction may write -/

/-- R20: a general register that R20 does not list as written by the instruction keeps its value. -/
def Obligations.RegisterWriteSetsHold : Prop :=
  ∀ (i : Instr) (s t : State) (r : Reg), exec i s = .next t → writesReg i r = false → t.getV r = s.getV r

/-- R32, R33, R22, R35, R36: in execute only 00E0 and DXYN write DISP and REDRAW, only ANNN, FX1E and FX29 write I, only
FX15 writes DT and only FX18 writes ST. -/
def Obligations.OnlyNamedInstructionsWriteDisplayIndexAndTimers : Prop :=
  ∀ (i : Instr) (s t : State), exec i s = .next t →
    (drawsDisplay i = false → t.disp = s.disp ∧ t.redraw = s.redraw) ∧
    ((∀ nnn, i ≠ .ldI nnn) → (∀ x, i ≠ .addIVx x) → (∀ x, i ≠ .ldFVx x) → t.i = s.i) ∧
    ((∀ x, i ≠ .ldDtVx x) → t.dt = s.dt) ∧ ((∀ x, i ≠ .ldStVx x) → t.st = s.st)

/-- R31: only 2NNN and 00EE write SP and STACK, 00EE leaves the array as it was, and 2NNN writes only the entry at SP. -/
def Obligations.OnlyCallAndReturnWriteTheStack : Prop :=
  ∀ (i : Instr) (s t : State), exec i s = .next t →
    ((∀ nnn, i ≠ .call nnn) → t.stack = s.stack) ∧
    ((∀ nnn, i ≠ .call nnn) → i ≠ .ret → t.sp = s.sp) ∧
    ∀ j : Fin 16, j.val ≠ s.sp.val → t.stack[j] = s.stack[j]

/-- R53, R55: FX33 and FX55 store only to the bytes from I on, and no other instruction changes any byte of memory. -/
def Obligations.StoresReachOnlyTheirBytes : Prop :=
  ∀ (i : Instr) (s t : State) (a : Nat), exec i s = .next t →
    ((∀ x, i ≠ .ldBVx x) → (∀ x, i ≠ .ldMemVx x) → t.mem = s.mem) ∧
    (∀ x, i = .ldBVx x → (a < s.i.toNat ∨ s.i.toNat + 3 ≤ a) → t.read a = s.read a) ∧
    (∀ x, i = .ldMemVx x → (a < s.i.toNat ∨ s.i.toNat + x.val < a) → t.read a = s.read a)

/-- R39, R44, R69: an instruction that takes no fault leaves the fault registers, SNDX and WAITING alone, and none
touches the model's own fields. -/
def Obligations.ExecuteLeavesTheStatusRegistersAlone : Prop :=
  ∀ (i : Instr) (s t : State), exec i s = .next t →
    (t.sndx = s.sndx ∧ t.started = s.started ∧ t.inputs = s.inputs ∧ t.draws = s.draws) ∧
    (s.faultCause = .none → t.faultCause = .none →
      t.waiting = s.waiting ∧ t.faultPc = s.faultPc ∧ t.faultInsn = s.faultInsn ∧ t.faultInfo = s.faultInfo)

/-! ## Control transfer -/

/-- R79: 00EE decrements SP and takes the popped entry as PC. Nothing else changes. -/
def Obligations.ReturnPopsIntoPc : Prop :=
  ∀ s : State, s.sp ≠ 0 → ∃ t, exec .ret s = .next t ∧ t = { s with sp := t.sp, pc := t.pc } ∧
    t.sp.val + 1 = s.sp.val ∧ ∀ j : Fin 16, j.val + 1 = s.sp.val → t.pc = s.stack[j]

/-- R80: a word of format A with op = 1 is 1NNN, and 1NNN writes PC with nnn. Nothing else changes. -/
def Obligations.JumpWritesPc : Prop :=
  ∀ (nnn : Addr) (s : State), decode (0x1#4 ++ nnn : Word) = .ok (.jp nnn) ∧
    exec (.jp nnn) s = .next { s with pc := zext16 nnn }

/-- R81: 2NNN pushes PC + 2 at SP, increments SP and jumps. Nothing else changes. -/
def Obligations.CallPushesTheReturnAddress : Prop :=
  ∀ (nnn : Addr) (s : State), s.sp ≠ 16 → ∃ t, exec (.call nnn) s = .next t ∧
    t = { s with stack := t.stack, sp := t.sp, pc := zext16 nnn } ∧ t.sp.val = s.sp.val + 1 ∧
    ∀ j : Fin 16, t.stack[j] = if j.val = s.sp.val then s.pc + 2 else s.stack[j]

/-- R79, R81: a return that follows a call, with the stack as the call left it, goes back to the address after the call
and restores SP. -/
def Obligations.ReturnUndoesCall : Prop :=
  ∀ (nnn : Addr) (s t u : State), s.sp ≠ 16 → exec (.call nnn) s = .next t → u.sp = t.sp → u.stack = t.stack →
    ∃ w, exec .ret u = .next w ∧ w.pc = s.pc + 2 ∧ w.sp = s.sp

/-- R82, R83, R84, R85: 3XKK and 4XKK skip on V[x] = kk and on V[x] ≠ kk, 5XY0 and 9XY0 on V[x] = V[y] and on
V[x] ≠ V[y]. Only PC changes. Each word decodes to its instruction, and a nonzero low nibble in 5XYn or 9XYn to none. -/
def Obligations.SkipsMovePc : Prop :=
  ∀ (x y : Reg) (kk : Byte) (s : State),
    decode (0x3#4 ++ regBits x ++ kk : Word) = .ok (.seByte x kk) ∧
    decode (0x4#4 ++ regBits x ++ kk : Word) = .ok (.sneByte x kk) ∧
    decode (0x5#4 ++ regBits x ++ regBits y ++ 0x0#4 : Word) = .ok (.seReg x y) ∧
    decode (0x9#4 ++ regBits x ++ regBits y ++ 0x0#4 : Word) = .ok (.sneReg x y) ∧
    (∀ n : Nibble, n ≠ 0 → (∃ e, decode (0x5#4 ++ regBits x ++ regBits y ++ n : Word) = .error e) ∧
      ∃ e, decode (0x9#4 ++ regBits x ++ regBits y ++ n : Word) = .error e) ∧
    exec (.seByte x kk) s = .next { s with pc := if s.getV x = kk then s.pc + 4 else s.pc + 2 } ∧
    exec (.sneByte x kk) s = .next { s with pc := if s.getV x ≠ kk then s.pc + 4 else s.pc + 2 } ∧
    exec (.seReg x y) s = .next { s with pc := if s.getV x = s.getV y then s.pc + 4 else s.pc + 2 } ∧
    exec (.sneReg x y) s = .next { s with pc := if s.getV x ≠ s.getV y then s.pc + 4 else s.pc + 2 }

/-- R86: BNNN writes PC with the exact sum of V0 and nnn. Only PC changes. -/
def Obligations.IndexedJumpIsExact : Prop :=
  ∀ (nnn : Addr) (s : State), ∃ t, exec (.jpV0 nnn) s = .next t ∧ t = { s with pc := t.pc } ∧
    t.pc.toNat = (s.getV 0).toNat + nnn.toNat

/-! ## Registers and ALU -/

/-- R87, R89: 6XKK writes kk and 8XY0 writes V[y] to V[x]; the other registers keep their values, and nothing but the
registers and PC changes. Their words decode to them. -/
def Obligations.RegisterLoads : Prop :=
  ∀ (x y : Reg) (kk : Byte) (s : State),
    decode (0x6#4 ++ regBits x ++ kk : Word) = .ok (.ldByte x kk) ∧
    decode (0x8#4 ++ regBits x ++ regBits y ++ 0x0#4 : Word) = .ok (.ldReg x y) ∧
    (∃ t, exec (.ldByte x kk) s = .next t ∧ t = { s with v := t.v, pc := s.pc + 2 } ∧
      ∀ r, t.getV r = if r = x then kk else s.getV r) ∧
    (∃ t, exec (.ldReg x y) s = .next t ∧ t = { s with v := t.v, pc := s.pc + 2 } ∧
      ∀ r, t.getV r = if r = x then s.getV y else s.getV r)

/-- R90, R91, R92: 8XY1, 8XY2 and 8XY3 write the bitwise OR, AND and XOR to V[x] and no other register. -/
def Obligations.BitwiseOperations : Prop :=
  ∀ (x y : Reg) (s : State),
    (∃ t, exec (.orReg x y) s = .next t ∧ t = { s with v := t.v, pc := s.pc + 2 } ∧
      ∀ r, t.getV r = if r = x then s.getV x ||| s.getV y else s.getV r) ∧
    (∃ t, exec (.andReg x y) s = .next t ∧ t = { s with v := t.v, pc := s.pc + 2 } ∧
      ∀ r, t.getV r = if r = x then s.getV x &&& s.getV y else s.getV r) ∧
    (∃ t, exec (.xorReg x y) s = .next t ∧ t = { s with v := t.v, pc := s.pc + 2 } ∧
      ∀ r, t.getV r = if r = x then s.getV x ^^^ s.getV y else s.getV r)

/-- R88: 7XKK writes the sum modulo 256 to V[x] and then the carry to VF, so x = 15 leaves the carry. Its word
decodes to it. -/
def Obligations.AddByteWithCarry : Prop :=
  ∀ (x : Reg) (kk : Byte) (s : State), decode (0x7#4 ++ regBits x ++ kk : Word) = .ok (.addByte x kk) ∧ ∃ t, 
    exec (.addByte x kk) s = .next t ∧ t = { s with v := t.v, pc := s.pc + 2 } ∧
    (x ≠ VF → (t.getV x).toNat = ((s.getV x).toNat + kk.toNat) % 256) ∧
    (t.getV VF).toNat = (if 255 < (s.getV x).toNat + kk.toNat then 1 else 0) ∧
    ∀ r, r ≠ x → r ≠ VF → t.getV r = s.getV r

/-- R93: 8XY4 writes the sum modulo 256 to V[x] and then the carry to VF; the sum is formed before any write. Its
word decodes to it. -/
def Obligations.AddRegistersWithCarry : Prop :=
  ∀ (x y : Reg) (s : State),
    decode (0x8#4 ++ regBits x ++ regBits y ++ 0x4#4 : Word) = .ok (.addReg x y) ∧ ∃ t,
    exec (.addReg x y) s = .next t ∧ t = { s with v := t.v, pc := s.pc + 2 } ∧
    (x ≠ VF → (t.getV x).toNat = ((s.getV x).toNat + (s.getV y).toNat) % 256) ∧
    (t.getV VF).toNat = (if 255 < (s.getV x).toNat + (s.getV y).toNat then 1 else 0) ∧
    ∀ r, r ≠ x → r ≠ VF → t.getV r = s.getV r

/-- R94: 8XY5 in each of its aliasing cases, with a = V[x], b = V[y] and f = VF before the instruction. -/
def Obligations.SubtractWithNotBorrow : Prop :=
  ∀ (x y : Reg) (s : State), ∃ t, exec (.sub x y) s = .next t ∧ t = { s with v := t.v, pc := s.pc + 2 } ∧
    (x ≠ VF → y ≠ VF →
      (t.getV VF).toNat = (if (s.getV y).toNat < (s.getV x).toNat then 1 else 0) ∧
      (t.getV x).toNat = ((s.getV x).toNat + 256 - (s.getV y).toNat) % 256) ∧
    (x = VF → y ≠ VF → (t.getV VF).toNat =
      ((if (s.getV y).toNat < (s.getV VF).toNat then 1 else 0) + 256 - (s.getV y).toNat) % 256) ∧
    (x ≠ VF → y = VF →
      (t.getV VF).toNat = (if (s.getV VF).toNat < (s.getV x).toNat then 1 else 0) ∧
      (t.getV x).toNat = ((s.getV x).toNat + 256 - (t.getV VF).toNat) % 256) ∧
    (x = VF → y = VF → t.getV VF = 0) ∧
    ∀ r, r ≠ x → r ≠ VF → t.getV r = s.getV r

/-- R96: 8XY7 in each of its aliasing cases, with a = V[x], b = V[y] and f = VF before the instruction. -/
def Obligations.ReverseSubtractWithNotBorrow : Prop :=
  ∀ (x y : Reg) (s : State), ∃ t, exec (.subn x y) s = .next t ∧ t = { s with v := t.v, pc := s.pc + 2 } ∧
    (x ≠ VF → y ≠ VF →
      (t.getV VF).toNat = (if (s.getV x).toNat < (s.getV y).toNat then 1 else 0) ∧
      (t.getV x).toNat = ((s.getV y).toNat + 256 - (s.getV x).toNat) % 256) ∧
    (x = VF → y ≠ VF → (t.getV VF).toNat =
      ((s.getV y).toNat + 256 - (if (s.getV VF).toNat < (s.getV y).toNat then 1 else 0)) % 256) ∧
    (x ≠ VF → y = VF →
      (t.getV VF).toNat = (if (s.getV x).toNat < (s.getV VF).toNat then 1 else 0) ∧
      (t.getV x).toNat = ((t.getV VF).toNat + 256 - (s.getV x).toNat) % 256) ∧
    (x = y → t.getV VF = 0 ∧ t.getV x = 0) ∧
    ∀ r, r ≠ x → r ≠ VF → t.getV r = s.getV r

/-- R95, R97: 8XY6 and 8XYE shift V[x] by one and put the lost bit into VF; for x = 15 the shift reads the new VF. -/
def Obligations.ShiftsByOne : Prop :=
  ∀ (x : Reg) (s : State),
    (∃ t, exec (.shr x) s = .next t ∧ t = { s with v := t.v, pc := s.pc + 2 } ∧
      (x ≠ VF → (t.getV VF).toNat = (s.getV x).toNat % 2 ∧ (t.getV x).toNat = (s.getV x).toNat / 2) ∧
      (x = VF → t.getV VF = 0) ∧ ∀ r, r ≠ x → r ≠ VF → t.getV r = s.getV r) ∧
    (∃ t, exec (.shl x) s = .next t ∧ t = { s with v := t.v, pc := s.pc + 2 } ∧
      (x ≠ VF → (t.getV VF).toNat = (s.getV x).toNat / 128 ∧ (t.getV x).toNat = (s.getV x).toNat * 2 % 256) ∧
      (x = VF → (t.getV VF).toNat = (s.getV VF).toNat / 128 * 2) ∧
      ∀ r, r ≠ x → r ≠ VF → t.getV r = s.getV r)

/-- R98: CXKK writes this cycle's random input masked by kk, whatever that input is. `State.rndIn` is the model's input
port (entry 2). -/
def Obligations.RandomByteIsMasked : Prop :=
  ∀ (x : Reg) (kk : Byte) (s : State), ∃ t, exec (.rnd x kk) s = .next t ∧
    t = { s with v := t.v, pc := s.pc + 2 } ∧ (∀ r, r ≠ x → t.getV r = s.getV r) ∧
    ∀ b, b < 8 → (t.getV x).getLsbD b = (s.rndIn.getLsbD b && kk.getLsbD b)

/-! ## Index register and memory -/

/-- R100: a word of format A with op = A is ANNN, and ANNN writes I with nnn. -/
def Obligations.LoadIndex : Prop :=
  ∀ (nnn : Addr) (s : State), decode (0xA#4 ++ nnn : Word) = .ok (.ldI nnn) ∧
    exec (.ldI nnn) s = .next { s with i := zext16 nnn, pc := s.pc + 2 }

/-- R101, R102: FX1E adds V[x] to I modulo 65536, and FX29 points I at V[x] × 5, not masked. -/
def Obligations.IndexArithmetic : Prop :=
  ∀ (x : Reg) (s : State),
    (∃ t, exec (.addIVx x) s = .next t ∧ t = { s with i := t.i, pc := s.pc + 2 } ∧
      t.i.toNat = (s.i.toNat + (s.getV x).toNat) % 65536) ∧
    (∃ t, exec (.ldFVx x) s = .next t ∧ t = { s with i := t.i, pc := s.pc + 2 } ∧
      t.i.toNat = (s.getV x).toNat * 5)

/-- R103: FX33 stores the hundreds, tens and ones of V[x] at I, I + 1 and I + 2. -/
def Obligations.DecimalDigitsAreStored : Prop :=
  ∀ (x : Reg) (s : State), s.i.toNat + 2 ≤ 0xFFF → ∃ t, exec (.ldBVx x) s = .next t ∧
    t = { s with mem := t.mem, pc := s.pc + 2 } ∧
    (t.read s.i.toNat).toNat = (s.getV x).toNat / 100 ∧
    (t.read (s.i.toNat + 1)).toNat = (s.getV x).toNat / 10 % 10 ∧
    (t.read (s.i.toNat + 2)).toNat = (s.getV x).toNat % 10 ∧
    ∀ a, a < s.i.toNat ∨ s.i.toNat + 2 < a → t.read a = s.read a

/-- R104: FX55 stores V[0]..V[x] at I, and I is unchanged. -/
def Obligations.RegistersAreStored : Prop :=
  ∀ (x : Reg) (s : State), s.i.toNat + x.val ≤ 0xFFF → ∃ t, exec (.ldMemVx x) s = .next t ∧
    t = { s with mem := t.mem, pc := s.pc + 2 } ∧
    (∀ r : Reg, r ≤ x → t.read (s.i.toNat + r.val) = s.getV r) ∧
    ∀ a, a < s.i.toNat ∨ s.i.toNat + x.val < a → t.read a = s.read a

/-- R105: FX65 loads V[0]..V[x] from I; I, memory and the other registers are unchanged. -/
def Obligations.RegistersAreLoaded : Prop :=
  ∀ (x : Reg) (s : State), s.i.toNat + x.val ≤ 0xFFF → ∃ t, exec (.ldVxMem x) s = .next t ∧
    t = { s with v := t.v, pc := s.pc + 2 } ∧
    ∀ r : Reg, t.getV r = if r ≤ x then s.read (s.i.toNat + r.val) else s.getV r

/-- R104, R105 and the source's example E8: loading from where FX55 stored gives the stored registers back, whatever
became of the registers in between. -/
def Obligations.LoadRestoresStoredRegisters : Prop :=
  ∀ (x : Reg) (s t u : State), s.i.toNat + x.val ≤ 0xFFF → exec (.ldMemVx x) s = .next t →
    u.mem = t.mem → u.i = t.i → ∃ w, exec (.ldVxMem x) u = .next w ∧ ∀ r : Reg, r ≤ x → w.getV r = s.getV r

/-- R28, R58: memory reads back the last byte written to an address and keeps every other one; writing keeps the
canonical form; and two memories in canonical form that read alike are the same data. -/
def Obligations.MemoryReadsBackAndIsCanonical : Prop :=
  (∀ (m : Memory) (a a' : Nat) (b : Byte), (m.write a b).read a' = if a' = a then b else m.read a') ∧
  (∀ (m : Memory) (a : Nat) (b : Byte), m.wf = true → a ≤ 0xFFF → (m.write a b).wf = true) ∧
  (∀ m m' : Memory, m.wf = true → m'.wf = true → (∀ a, a ≤ 0xFFF → m.read a = m'.read a) → m = m')

/-! ## Display -/

/-- R106: exactly the word 0x00E0 is 00E0, and 00E0 turns every pixel off and sets REDRAW; VF and the rest stay. -/
def Obligations.ClearTurnsEveryPixelOff : Prop :=
  (∀ w : Word, decode w = .ok .cls ↔ w = 0x00E0#16) ∧
  ∀ s : State, ∃ t, exec .cls s = .next t ∧ t = { s with disp := t.disp, redraw := true, pc := s.pc + 2 } ∧
    ∀ x y, Display.pixel t.disp x y = false

/-- R107, R108, R109: DXYN XORs the sprite onto the 64 × 32 torus, sets VF to 1 exactly when some set bit meets a lit
pixel, and sets REDRAW; no other register changes. -/
def Obligations.DrawXorsTheSprite : Prop :=
  ∀ (x y : Reg) (n : Nibble) (s : State), (n.toNat = 0 ∨ s.i.toNat + (n.toNat - 1) ≤ 0xFFF) →
    ∃ t, exec (.drw x y n) s = .next t ∧
      t = { s with v := t.v, disp := t.disp, redraw := true, pc := s.pc + 2 } ∧
      (∀ px py, Display.pixel t.disp px py = (Display.pixel s.disp px py ^^
        spriteCovers (s.getV x).toNat (s.getV y).toNat (fun r => s.read (s.i.toNat + r)) n.toNat px py)) ∧
      t.getV VF = (if ∃ px py, Display.pixel s.disp px py = true ∧
        spriteCovers (s.getV x).toNat (s.getV y).toNat (fun r => s.read (s.i.toNat + r)) n.toNat px py = true
        then 1 else 0) ∧
      ∀ r, r ≠ VF → t.getV r = s.getV r

/-- R109 and the source's example E4: the same draw a second time restores the display. -/
def Obligations.DrawTwiceRestoresTheDisplay : Prop :=
  ∀ (x y : Reg) (n : Nibble) (s t u : State), x ≠ VF → y ≠ VF → exec (.drw x y n) s = .next t →
    exec (.drw x y n) t = .next u → u.disp = s.disp

/-! ## Keypad and timers -/

/-- R110, R111: EX9E and EXA1 skip on the key numbered V[x], pressed or not, when that number is at most 15. -/
def Obligations.KeySkipsTestTheSnapshot : Prop :=
  ∀ (x : Reg) (s : State), (s.getV x).toNat ≤ 15 →
    exec (.skp x) s = .next { s with
      pc := if s.keys.getLsbD (s.getV x).toNat = true then s.pc + 4 else s.pc + 2 } ∧
    exec (.sknp x) s = .next { s with
      pc := if s.keys.getLsbD (s.getV x).toNat = false then s.pc + 4 else s.pc + 2 }

/-- R112: FX07 copies DT to V[x], and no other register changes. -/
def Obligations.DelayTimerIsRead : Prop :=
  ∀ (x : Reg) (s : State), ∃ t, exec (.ldVxDt x) s = .next t ∧ t = { s with v := t.v, pc := s.pc + 2 } ∧
    ∀ r, t.getV r = if r = x then s.dt else s.getV r

/-- R114, R115: FX15 and FX18 copy V[x] to DT and to ST, before the cycle's tick. -/
def Obligations.TimersAreSet : Prop :=
  ∀ (x : Reg) (s : State),
    exec (.ldDtVx x) s = .next { s with dt := s.getV x, pc := s.pc + 2 } ∧
    exec (.ldStVx x) s = .next { s with st := s.getV x, pc := s.pc + 2 }

/-- R113, R9: FX0A with no key pressed changes nothing; with a key pressed it writes the index of a pressed key, the only
one when one is pressed and the lowest when the draw is 0, and advances. The draw is the model's input (entry 2). -/
def Obligations.KeyWaitCompletesOnAnyPressedKey : Prop :=
  ∀ (x : Reg) (s : State),
    (s.keys = 0 → exec (.ldVxK x) s = .next s) ∧
    (s.keys ≠ 0 → ∃ t k, exec (.ldVxK x) s = .next t ∧ t = { s with v := t.v, pc := s.pc + 2 } ∧
      k < 16 ∧ s.keys.getLsbD k = true ∧ (∀ r, t.getV r = if r = x then BitVec.ofNat 8 k else s.getV r) ∧
      (s.keyPick = 0 → ∀ j, j < k → s.keys.getLsbD j = false))

/-- R113, R134: while the host presses no key, all state survives FX0A's wait through any number of cycles, but for the
timers, which keep ticking. The host's coming key masks are the model's list `inputs` (entry 2). -/
def Obligations.KeyWaitHoldsUntilAKeyIsPressed : Prop :=
  ∀ (k : Nat) (x : Reg) (s t : State), s.faultCause = .none → nextInstr s = some (.ldVxK x) →
    k ≤ s.inputs.length → (∀ e ∈ s.inputs.take k, e.keys = 0) → afterCycles k s = some t →
    t.pc = s.pc ∧ t.v = s.v ∧ t.i = s.i ∧ t.sp = s.sp ∧ t.stack = s.stack ∧ t.mem = s.mem ∧ t.disp = s.disp ∧
    t.faultCause = .none ∧ t.faultPc = s.faultPc ∧ t.faultInsn = s.faultInsn ∧ t.faultInfo = s.faultInfo ∧
    t.dt.toNat = s.dt.toNat - k ∧ t.st.toNat = s.st.toNat - k ∧ (0 < k → t.waiting = true ∧ t.redraw = false ∧ t.keys = 0)

/-- R141: over k cycles that complete and run no FX15, DT counts down by k and stops at 0. -/
def Obligations.DelayTimerCountsDownByTheCycle : Prop :=
  ∀ (k : Nat) (s t : State), afterCycles k s = some t → t.faultCause = .none →
    (∀ j u x, j < k → afterCycles j s = some u → nextInstr u ≠ some (.ldDtVx x)) →
    t.dt.toNat = s.dt.toNat - k

/-! ## Whole-machine rules, reset and the host's ports -/

/-- R10, R98: two running states that differ only in what the host drives on `rnd_in` and in the KEY_SELECT draw take
the same step, unless the instruction is CXKK or FX0A. The inputs are the model's list (entry 2). -/
def Obligations.OnlyRandomAndKeyWaitSeeTheDraws : Prop :=
  ∀ (s t u : State) (e f : StrobeInput) (rest : List StrobeInput), e.keys = f.keys →
    (∀ x kk, nextInstr s ≠ some (.rnd x kk)) → (∀ x, nextInstr s ≠ some (.ldVxK x)) →
    step (s.drive (e :: rest)) = .next t → step (s.drive (f :: rest)) = .next u →
    { t with inputs := [] } = { u with inputs := [] }

/-- R45, R135: every register of the reset state; M[0x050..0xFFF] is 0. For every FONT (R8), in every state, halted or
not, `rst` puts every piece of the block's state at that value, with FONT at M[0x000..0x04F] and memory in canonical form.
The values the source omits are the spec's decision D16 (entry 10); that `rst` leaves the model's `inputs` and `draws` is
entry 2, and `started` is entry 3. -/
def Obligations.ResetState : Prop :=
  (∀ r, State.reset.getV r = 0) ∧ State.reset.i = 0 ∧ State.reset.pc = 0x200 ∧ State.reset.sp = 0 ∧
  (∀ j : Fin 16, State.reset.stack[j] = 0) ∧ State.reset.dt = 0 ∧ State.reset.st = 0 ∧
  (∀ a, 0x50 ≤ a → State.reset.read a = 0) ∧ (∀ x y, Display.pixel State.reset.disp x y = false) ∧
  State.reset.redraw = false ∧ State.reset.keys = 0 ∧ State.reset.sndx = false ∧ State.reset.waiting = false ∧
  State.reset.faultCause = .none ∧ State.reset.faultPc = 0 ∧ State.reset.faultInsn = 0 ∧ State.reset.faultInfo = 0 ∧
  State.reset.started = false ∧
  ∀ font : Vector Byte 80, State.reset.assertReset font = State.resetWith font ∧
    (∀ a, (State.resetWith font).read a = if h : a < 80 then font[a] else 0) ∧
    ∀ s : State, (s.assertReset font).mem.wf = true ∧
      (∀ a, (s.assertReset font).read a = if h : a < 80 then font[a] else 0) ∧
      s.assertReset font = { State.reset with
        mem := (s.assertReset font).mem, inputs := s.inputs, draws := s.draws }

/-- R137, R46: the image goes verbatim to 0x200 before the first cycle and nowhere else, an image above 3584 bytes is
refused; before the first cycle a write through the load port sets one byte at any 12-bit address; and the port is ignored
once a cycle has run. `started` is the model's bit for that (entry 3). -/
def Obligations.ImageLoadIsVerbatimAndOnlyBeforeTheFirstCycle : Prop :=
  ∀ (s : State) (image : List Byte),
    (3584 < image.length → s.loadImage image = none) ∧
    (image.length ≤ 3584 → s.started = false → ∃ t, s.loadImage image = some t ∧ t = { s with mem := t.mem } ∧
      ∀ a, t.read a = if h : 0x200 ≤ a ∧ a - 0x200 < image.length then image[a - 0x200] else s.read a) ∧
    (s.started = false → ∀ (a : Addr) (b : Byte), ∃ t, s.loadByte a b = t ∧ t = { s with mem := t.mem } ∧
      ∀ a', t.read a' = if a' = a.toNat then b else s.read a') ∧
    (s.started = true → (image.length ≤ 3584 → s.loadImage image = some s) ∧ ∀ a b, s.loadByte a b = s) ∧
    ∀ t, s.faultCause = .none → step s = .next t → t.started = true

/-- R135, R138: a machine reset with any font, from any state, halted or not, and given no image runs a cycle again and
takes the decode fault on the zero word at 0x200. `started` and `draws` are the model's (entries 2 and 3). -/
def Obligations.EmptyMachineTakesTheDecodeFault : Prop :=
  ∀ (font : Vector Byte 80) (m : State), (m = State.resetWith font ∨ ∃ s, m = State.assertReset font s) →
    ∃ t, step m = .next t ∧ t.faultCause = .decode ∧ t.faultPc = 0x200 ∧ t.faultInsn = 0 ∧ t.faultInfo = 0 ∧
      t.pc = 0x200 ∧ t.started = true ∧ t.draws = m.draws + 1
end

