-- ==== Sys2Proof/Laws/Decode.lean ====
section
/-! SUPPORT. The fields of encoded words, and the bytes of a word. -/

namespace Sys2Proof

@[simp] theorem regOf_regBits (x : Reg) : regOf (regBits x) = x := rfl

@[simp] theorem regBits_regOf (b : Nibble) : regBits (regOf b) = b := rfl

/-! ## Fields as arithmetic -/

theorem opField_toNat (w : Word) : (opField w).toNat = w.toNat / 4096 := by
  have := w.isLt
  simp only [opField, BitVec.extractLsb'_toNat, Nat.shiftRight_eq_div_pow]
  omega

theorem xBits_toNat (w : Word) : (xBits w).toNat = w.toNat / 256 % 16 := by
  simp only [xBits, BitVec.extractLsb'_toNat, Nat.shiftRight_eq_div_pow]

theorem yBits_toNat (w : Word) : (yBits w).toNat = w.toNat / 16 % 16 := by
  simp only [yBits, BitVec.extractLsb'_toNat, Nat.shiftRight_eq_div_pow]

theorem nField_toNat (w : Word) : (nField w).toNat = w.toNat % 16 := by
  simp only [nField, BitVec.extractLsb'_toNat, Nat.shiftRight_eq_div_pow]
  omega

theorem nnnField_toNat (w : Word) : (nnnField w).toNat = w.toNat % 4096 := by
  simp only [nnnField, BitVec.extractLsb'_toNat, Nat.shiftRight_eq_div_pow]
  omega

theorem kkField_toNat (w : Word) : (kkField w).toNat = w.toNat % 256 := by
  simp only [kkField, BitVec.extractLsb'_toNat, Nat.shiftRight_eq_div_pow]
  omega

/-! ## Words as arithmetic -/

theorem regBits_toNat (x : Reg) : (regBits x).toNat = x.val := rfl

theorem wordRRN_toNat (op : Nibble) (x y : Reg) (n : Nibble) :
    (wordRRN op x y n).toNat = op.toNat * 4096 + x.val * 256 + y.val * 16 + n.toNat := by
  have h1 := x.isLt; have h2 := y.isLt; have h3 := n.isLt
  show ((op ++ regBits x ++ regBits y ++ n : BitVec (4 + 4 + 4 + 4))).toNat = _
  simp only [BitVec.toNat_append, regBits_toNat]
  rw [← Nat.shiftLeft_add_eq_or_of_lt (by omega), ← Nat.shiftLeft_add_eq_or_of_lt (by omega),
    ← Nat.shiftLeft_add_eq_or_of_lt (by omega)]
  simp only [Nat.shiftLeft_eq]
  omega

theorem wordRK_toNat (op : Nibble) (x : Reg) (kk : Byte) :
    (wordRK op x kk).toNat = op.toNat * 4096 + x.val * 256 + kk.toNat := by
  have h1 := x.isLt; have h3 := kk.isLt
  show ((op ++ regBits x ++ kk : BitVec (4 + 4 + 8))).toNat = _
  simp only [BitVec.toNat_append, regBits_toNat]
  rw [← Nat.shiftLeft_add_eq_or_of_lt (by omega), ← Nat.shiftLeft_add_eq_or_of_lt (by omega)]
  simp only [Nat.shiftLeft_eq]
  omega

theorem wordA_toNat (op : Nibble) (nnn : Addr) : (wordA op nnn).toNat = op.toNat * 4096 + nnn.toNat := by
  have h3 := nnn.isLt
  show ((op ++ nnn : BitVec (4 + 12))).toNat = _
  simp only [BitVec.toNat_append]
  rw [← Nat.shiftLeft_add_eq_or_of_lt (by omega)]
  simp only [Nat.shiftLeft_eq]

/-! ## Fields of words -/

theorem wordRRN_fields (op : Nibble) (x y : Reg) (n : Nibble) :
    opField (wordRRN op x y n) = op ∧ xField (wordRRN op x y n) = x ∧ yField (wordRRN op x y n) = y ∧
      nField (wordRRN op x y n) = n := by
  have hw := wordRRN_toNat op x y n
  have h1 := x.isLt; have h2 := y.isLt; have h3 := n.isLt; have h4 := op.isLt
  refine ⟨BitVec.eq_of_toNat_eq ?_, Fin.ext ?_, Fin.ext ?_, BitVec.eq_of_toNat_eq ?_⟩
  · rw [opField_toNat]; omega
  · show (xBits _).toNat = _; rw [xBits_toNat]; omega
  · show (yBits _).toNat = _; rw [yBits_toNat]; omega
  · rw [nField_toNat]; omega

theorem wordRK_fields (op : Nibble) (x : Reg) (kk : Byte) :
    opField (wordRK op x kk) = op ∧ xField (wordRK op x kk) = x ∧ kkField (wordRK op x kk) = kk := by
  have hw := wordRK_toNat op x kk
  have h1 := x.isLt; have h3 := kk.isLt; have h4 := op.isLt
  refine ⟨BitVec.eq_of_toNat_eq ?_, Fin.ext ?_, BitVec.eq_of_toNat_eq ?_⟩
  · rw [opField_toNat]; omega
  · show (xBits _).toNat = _; rw [xBits_toNat]; omega
  · rw [kkField_toNat]; omega

theorem wordA_fields (op : Nibble) (nnn : Addr) :
    opField (wordA op nnn) = op ∧ nnnField (wordA op nnn) = nnn := by
  have hw := wordA_toNat op nnn
  have h3 := nnn.isLt; have h4 := op.isLt
  refine ⟨BitVec.eq_of_toNat_eq ?_, BitVec.eq_of_toNat_eq ?_⟩
  · rw [opField_toNat]; omega
  · rw [nnnField_toNat]; omega

/-- A word is put together from its four nibbles. -/
theorem word_eq_of_nibbles (w : Word) : w = wordRRN (opField w) (xField w) (yField w) (nField w) := by
  have := w.isLt
  apply BitVec.eq_of_toNat_eq
  rw [wordRRN_toNat, opField_toNat, nField_toNat]
  have hx : (xField w).val = w.toNat / 256 % 16 := xBits_toNat w
  have hy : (yField w).val = w.toNat / 16 % 16 := yBits_toNat w
  omega

/-- A word is put together from its top nibble, x and kk. -/
theorem word_eq_of_x_kk (w : Word) : w = wordRK (opField w) (xField w) (kkField w) := by
  have := w.isLt
  apply BitVec.eq_of_toNat_eq
  rw [wordRK_toNat, opField_toNat, kkField_toNat]
  have hx : (xField w).val = w.toNat / 256 % 16 := xBits_toNat w
  omega

/-- A word is put together from its top nibble and nnn. -/
theorem word_eq_of_nnn (w : Word) : w = wordA (opField w) (nnnField w) := by
  have := w.isLt
  apply BitVec.eq_of_toNat_eq
  rw [wordA_toNat, opField_toNat, nnnField_toNat]
  omega

/-! ## Bytes of words -/

theorem wordOfBytes_toNat (hi lo : Byte) : (wordOfBytes hi lo).toNat = hi.toNat * 256 + lo.toNat := by
  have h3 := lo.isLt
  show ((hi ++ lo : BitVec (8 + 8))).toNat = _
  simp only [BitVec.toNat_append]
  rw [← Nat.shiftLeft_add_eq_or_of_lt (by omega)]
  simp only [Nat.shiftLeft_eq]

/-- A word is its two bytes, high byte first (R51). -/
theorem wordOfBytes_hiByte_loByte (w : Word) : wordOfBytes (hiByte w) (loByte w) = w := by
  have := w.isLt
  apply BitVec.eq_of_toNat_eq
  rw [wordOfBytes_toNat]
  simp only [hiByte, loByte, BitVec.extractLsb'_toNat, Nat.shiftRight_eq_div_pow]
  omega

/-! ## Match and mask -/

theorem wordRRN_and (a b c d a' b' c' d' : Nibble) :
    wordRRN a (regOf b) (regOf c) d &&& wordRRN a' (regOf b') (regOf c') d' =
      wordRRN (a &&& a') (regOf (b &&& b')) (regOf (c &&& c')) (d &&& d') := by
  show (a ++ b ++ c ++ d : BitVec (4 + 4 + 4 + 4)) &&& (a' ++ b' ++ c' ++ d') =
    (a &&& a') ++ (b &&& b') ++ (c &&& c') ++ (d &&& d')
  simp only [BitVec.and_append]

theorem wordRRN_inj {a a' : Nibble} {b b' c c' : Reg} {d d' : Nibble} :
    wordRRN a b c d = wordRRN a' b' c' d' ↔ a = a' ∧ b = b' ∧ c = c' ∧ d = d' := by
  constructor
  · intro h
    have h1 := wordRRN_fields a b c d
    have h2 := wordRRN_fields a' b' c' d'
    rw [h] at h1
    exact ⟨h1.1.symm.trans h2.1, h1.2.1.symm.trans h2.2.1, h1.2.2.1.symm.trans h2.2.2.1,
      h1.2.2.2.symm.trans h2.2.2.2⟩
  · rintro ⟨rfl, rfl, rfl, rfl⟩; rfl

/-- A word under a mask of four nibbles. -/
theorem word_and_mask (w : Word) (a b c d : Nibble) :
    w &&& wordRRN a (regOf b) (regOf c) d =
      wordRRN (opField w &&& a) (regOf (xBits w &&& b)) (regOf (yBits w &&& c)) (nField w &&& d) := by
  conv_lhs => rw [word_eq_of_nibbles w]
  exact wordRRN_and _ _ _ _ _ _ _ _

theorem nibble_and_ones : ∀ b : Nibble, b &&& 0xF#4 = b := by decide

theorem reg_and_zero : ∀ b : Nibble, regOf (b &&& 0x0#4) = 0 := by decide

theorem nibble_and_zero : ∀ b : Nibble, b &&& 0x0#4 = 0 := by decide

/-- A row that fixes the top nibble. -/
theorem select_op (w : Word) (op : Nibble) :
    w &&& 0xF000#16 = wordRRN op 0 0 0 ↔ opField w = op := by
  have : (0xF000#16 : Word) = wordRRN 0xF#4 (regOf 0x0#4) (regOf 0x0#4) 0x0#4 := by decide
  rw [this, word_and_mask, wordRRN_inj, nibble_and_ones, reg_and_zero, reg_and_zero, nibble_and_zero]
  simp

/-- A row that fixes the top nibble and the low nibble. -/
theorem select_op_n (w : Word) (op n : Nibble) :
    w &&& 0xF00F#16 = wordRRN op 0 0 n ↔ opField w = op ∧ nField w = n := by
  have : (0xF00F#16 : Word) = wordRRN 0xF#4 (regOf 0x0#4) (regOf 0x0#4) 0xF#4 := by decide
  rw [this, word_and_mask, wordRRN_inj, nibble_and_ones, reg_and_zero, reg_and_zero, nibble_and_ones]
  simp

/-- A row that fixes the top nibble and the low byte. -/
theorem select_op_kk (w : Word) (op : Nibble) (kk : Byte) :
    w &&& 0xF0FF#16 = wordRK op 0 kk ↔ opField w = op ∧ kkField w = kk := by
  have hm : (0xF0FF#16 : Word) = wordRRN 0xF#4 (regOf 0x0#4) (regOf 0xF#4) 0xF#4 := by decide
  rw [hm, word_and_mask, nibble_and_ones, reg_and_zero, nibble_and_ones, nibble_and_ones]
  have h1 := kk.isLt; have h2 := yBits_toNat w; have h3 := nField_toNat w; have h4 := kkField_toNat w
  have hl := wordRRN_toNat (opField w) 0 (regOf (yBits w)) (nField w)
  have hr := wordRK_toNat op 0 kk
  have hy : (regOf (yBits w)).val = (yBits w).toNat := rfl
  have h5 := (opField w).isLt; have h6 := op.isLt; have h0 : ((0 : Reg)).val = 0 := rfl
  constructor
  · intro h
    have := congrArg BitVec.toNat h
    exact ⟨BitVec.eq_of_toNat_eq (by omega), BitVec.eq_of_toNat_eq (by omega)⟩
  · rintro ⟨rfl, rfl⟩
    exact BitVec.eq_of_toNat_eq (by omega)

end Sys2Proof
end

