-- ==== Sys2Proof/Laws/State.lean ====
section
/-! SUPPORT. One lemma per field of State and update: what the update leaves in the field. -/

namespace Sys2Proof.Machine

variable (s : State)

/-! ### setV -/

@[simp] theorem State.setV_v (x : Reg) (b : Byte) : (s.setV x b).v = s.v.set x b := rfl
@[simp] theorem State.setV_i (x : Reg) (b : Byte) : (s.setV x b).i = s.i := rfl
@[simp] theorem State.setV_pc (x : Reg) (b : Byte) : (s.setV x b).pc = s.pc := rfl
@[simp] theorem State.setV_sp (x : Reg) (b : Byte) : (s.setV x b).sp = s.sp := rfl
@[simp] theorem State.setV_stack (x : Reg) (b : Byte) : (s.setV x b).stack = s.stack := rfl
@[simp] theorem State.setV_dt (x : Reg) (b : Byte) : (s.setV x b).dt = s.dt := rfl
@[simp] theorem State.setV_st (x : Reg) (b : Byte) : (s.setV x b).st = s.st := rfl
@[simp] theorem State.setV_mem (x : Reg) (b : Byte) : (s.setV x b).mem = s.mem := rfl
@[simp] theorem State.setV_disp (x : Reg) (b : Byte) : (s.setV x b).disp = s.disp := rfl
@[simp] theorem State.setV_redraw (x : Reg) (b : Byte) : (s.setV x b).redraw = s.redraw := rfl
@[simp] theorem State.setV_keys (x : Reg) (b : Byte) : (s.setV x b).keys = s.keys := rfl
@[simp] theorem State.setV_sndx (x : Reg) (b : Byte) : (s.setV x b).sndx = s.sndx := rfl
@[simp] theorem State.setV_waiting (x : Reg) (b : Byte) : (s.setV x b).waiting = s.waiting := rfl
@[simp] theorem State.setV_faultCause (x : Reg) (b : Byte) : (s.setV x b).faultCause = s.faultCause := rfl
@[simp] theorem State.setV_faultPc (x : Reg) (b : Byte) : (s.setV x b).faultPc = s.faultPc := rfl
@[simp] theorem State.setV_faultInsn (x : Reg) (b : Byte) : (s.setV x b).faultInsn = s.faultInsn := rfl
@[simp] theorem State.setV_faultInfo (x : Reg) (b : Byte) : (s.setV x b).faultInfo = s.faultInfo := rfl
@[simp] theorem State.setV_started (x : Reg) (b : Byte) : (s.setV x b).started = s.started := rfl
@[simp] theorem State.setV_inputs (x : Reg) (b : Byte) : (s.setV x b).inputs = s.inputs := rfl
@[simp] theorem State.setV_draws (x : Reg) (b : Byte) : (s.setV x b).draws = s.draws := rfl

/-! ### setVF -/

@[simp] theorem State.setVF_v (b : Byte) : (s.setVF b).v = s.v.set VF b := rfl
@[simp] theorem State.setVF_i (b : Byte) : (s.setVF b).i = s.i := rfl
@[simp] theorem State.setVF_pc (b : Byte) : (s.setVF b).pc = s.pc := rfl
@[simp] theorem State.setVF_sp (b : Byte) : (s.setVF b).sp = s.sp := rfl
@[simp] theorem State.setVF_stack (b : Byte) : (s.setVF b).stack = s.stack := rfl
@[simp] theorem State.setVF_dt (b : Byte) : (s.setVF b).dt = s.dt := rfl
@[simp] theorem State.setVF_st (b : Byte) : (s.setVF b).st = s.st := rfl
@[simp] theorem State.setVF_mem (b : Byte) : (s.setVF b).mem = s.mem := rfl
@[simp] theorem State.setVF_disp (b : Byte) : (s.setVF b).disp = s.disp := rfl
@[simp] theorem State.setVF_redraw (b : Byte) : (s.setVF b).redraw = s.redraw := rfl
@[simp] theorem State.setVF_keys (b : Byte) : (s.setVF b).keys = s.keys := rfl
@[simp] theorem State.setVF_sndx (b : Byte) : (s.setVF b).sndx = s.sndx := rfl
@[simp] theorem State.setVF_waiting (b : Byte) : (s.setVF b).waiting = s.waiting := rfl
@[simp] theorem State.setVF_faultCause (b : Byte) : (s.setVF b).faultCause = s.faultCause := rfl
@[simp] theorem State.setVF_faultPc (b : Byte) : (s.setVF b).faultPc = s.faultPc := rfl
@[simp] theorem State.setVF_faultInsn (b : Byte) : (s.setVF b).faultInsn = s.faultInsn := rfl
@[simp] theorem State.setVF_faultInfo (b : Byte) : (s.setVF b).faultInfo = s.faultInfo := rfl
@[simp] theorem State.setVF_started (b : Byte) : (s.setVF b).started = s.started := rfl
@[simp] theorem State.setVF_inputs (b : Byte) : (s.setVF b).inputs = s.inputs := rfl
@[simp] theorem State.setVF_draws (b : Byte) : (s.setVF b).draws = s.draws := rfl

/-! ### advance -/

@[simp] theorem State.advance_v : s.advance.v = s.v := rfl
@[simp] theorem State.advance_i : s.advance.i = s.i := rfl
@[simp] theorem State.advance_pc : s.advance.pc = s.pc + 2 := rfl
@[simp] theorem State.advance_sp : s.advance.sp = s.sp := rfl
@[simp] theorem State.advance_stack : s.advance.stack = s.stack := rfl
@[simp] theorem State.advance_dt : s.advance.dt = s.dt := rfl
@[simp] theorem State.advance_st : s.advance.st = s.st := rfl
@[simp] theorem State.advance_mem : s.advance.mem = s.mem := rfl
@[simp] theorem State.advance_disp : s.advance.disp = s.disp := rfl
@[simp] theorem State.advance_redraw : s.advance.redraw = s.redraw := rfl
@[simp] theorem State.advance_keys : s.advance.keys = s.keys := rfl
@[simp] theorem State.advance_sndx : s.advance.sndx = s.sndx := rfl
@[simp] theorem State.advance_waiting : s.advance.waiting = s.waiting := rfl
@[simp] theorem State.advance_faultCause : s.advance.faultCause = s.faultCause := rfl
@[simp] theorem State.advance_faultPc : s.advance.faultPc = s.faultPc := rfl
@[simp] theorem State.advance_faultInsn : s.advance.faultInsn = s.faultInsn := rfl
@[simp] theorem State.advance_faultInfo : s.advance.faultInfo = s.faultInfo := rfl
@[simp] theorem State.advance_started : s.advance.started = s.started := rfl
@[simp] theorem State.advance_inputs : s.advance.inputs = s.inputs := rfl
@[simp] theorem State.advance_draws : s.advance.draws = s.draws := rfl

/-! ### skipIf -/

@[simp] theorem State.skipIf_v (c : Bool) : (s.skipIf c).v = s.v := rfl
@[simp] theorem State.skipIf_i (c : Bool) : (s.skipIf c).i = s.i := rfl
@[simp] theorem State.skipIf_pc (c : Bool) : (s.skipIf c).pc = if c then s.pc + 4 else s.pc + 2 := rfl
@[simp] theorem State.skipIf_sp (c : Bool) : (s.skipIf c).sp = s.sp := rfl
@[simp] theorem State.skipIf_stack (c : Bool) : (s.skipIf c).stack = s.stack := rfl
@[simp] theorem State.skipIf_dt (c : Bool) : (s.skipIf c).dt = s.dt := rfl
@[simp] theorem State.skipIf_st (c : Bool) : (s.skipIf c).st = s.st := rfl
@[simp] theorem State.skipIf_mem (c : Bool) : (s.skipIf c).mem = s.mem := rfl
@[simp] theorem State.skipIf_disp (c : Bool) : (s.skipIf c).disp = s.disp := rfl
@[simp] theorem State.skipIf_redraw (c : Bool) : (s.skipIf c).redraw = s.redraw := rfl
@[simp] theorem State.skipIf_keys (c : Bool) : (s.skipIf c).keys = s.keys := rfl
@[simp] theorem State.skipIf_sndx (c : Bool) : (s.skipIf c).sndx = s.sndx := rfl
@[simp] theorem State.skipIf_waiting (c : Bool) : (s.skipIf c).waiting = s.waiting := rfl
@[simp] theorem State.skipIf_faultCause (c : Bool) : (s.skipIf c).faultCause = s.faultCause := rfl
@[simp] theorem State.skipIf_faultPc (c : Bool) : (s.skipIf c).faultPc = s.faultPc := rfl
@[simp] theorem State.skipIf_faultInsn (c : Bool) : (s.skipIf c).faultInsn = s.faultInsn := rfl
@[simp] theorem State.skipIf_faultInfo (c : Bool) : (s.skipIf c).faultInfo = s.faultInfo := rfl
@[simp] theorem State.skipIf_started (c : Bool) : (s.skipIf c).started = s.started := rfl
@[simp] theorem State.skipIf_inputs (c : Bool) : (s.skipIf c).inputs = s.inputs := rfl
@[simp] theorem State.skipIf_draws (c : Bool) : (s.skipIf c).draws = s.draws := rfl

/-! ### jump -/

@[simp] theorem State.jump_v (w : Word) : (s.jump w).v = s.v := rfl
@[simp] theorem State.jump_i (w : Word) : (s.jump w).i = s.i := rfl
@[simp] theorem State.jump_pc (w : Word) : (s.jump w).pc = w := rfl
@[simp] theorem State.jump_sp (w : Word) : (s.jump w).sp = s.sp := rfl
@[simp] theorem State.jump_stack (w : Word) : (s.jump w).stack = s.stack := rfl
@[simp] theorem State.jump_dt (w : Word) : (s.jump w).dt = s.dt := rfl
@[simp] theorem State.jump_st (w : Word) : (s.jump w).st = s.st := rfl
@[simp] theorem State.jump_mem (w : Word) : (s.jump w).mem = s.mem := rfl
@[simp] theorem State.jump_disp (w : Word) : (s.jump w).disp = s.disp := rfl
@[simp] theorem State.jump_redraw (w : Word) : (s.jump w).redraw = s.redraw := rfl
@[simp] theorem State.jump_keys (w : Word) : (s.jump w).keys = s.keys := rfl
@[simp] theorem State.jump_sndx (w : Word) : (s.jump w).sndx = s.sndx := rfl
@[simp] theorem State.jump_waiting (w : Word) : (s.jump w).waiting = s.waiting := rfl
@[simp] theorem State.jump_faultCause (w : Word) : (s.jump w).faultCause = s.faultCause := rfl
@[simp] theorem State.jump_faultPc (w : Word) : (s.jump w).faultPc = s.faultPc := rfl
@[simp] theorem State.jump_faultInsn (w : Word) : (s.jump w).faultInsn = s.faultInsn := rfl
@[simp] theorem State.jump_faultInfo (w : Word) : (s.jump w).faultInfo = s.faultInfo := rfl
@[simp] theorem State.jump_started (w : Word) : (s.jump w).started = s.started := rfl
@[simp] theorem State.jump_inputs (w : Word) : (s.jump w).inputs = s.inputs := rfl
@[simp] theorem State.jump_draws (w : Word) : (s.jump w).draws = s.draws := rfl

/-! ### setI -/

@[simp] theorem State.setI_v (w : Word) : (s.setI w).v = s.v := rfl
@[simp] theorem State.setI_i (w : Word) : (s.setI w).i = w := rfl
@[simp] theorem State.setI_pc (w : Word) : (s.setI w).pc = s.pc := rfl
@[simp] theorem State.setI_sp (w : Word) : (s.setI w).sp = s.sp := rfl
@[simp] theorem State.setI_stack (w : Word) : (s.setI w).stack = s.stack := rfl
@[simp] theorem State.setI_dt (w : Word) : (s.setI w).dt = s.dt := rfl
@[simp] theorem State.setI_st (w : Word) : (s.setI w).st = s.st := rfl
@[simp] theorem State.setI_mem (w : Word) : (s.setI w).mem = s.mem := rfl
@[simp] theorem State.setI_disp (w : Word) : (s.setI w).disp = s.disp := rfl
@[simp] theorem State.setI_redraw (w : Word) : (s.setI w).redraw = s.redraw := rfl
@[simp] theorem State.setI_keys (w : Word) : (s.setI w).keys = s.keys := rfl
@[simp] theorem State.setI_sndx (w : Word) : (s.setI w).sndx = s.sndx := rfl
@[simp] theorem State.setI_waiting (w : Word) : (s.setI w).waiting = s.waiting := rfl
@[simp] theorem State.setI_faultCause (w : Word) : (s.setI w).faultCause = s.faultCause := rfl
@[simp] theorem State.setI_faultPc (w : Word) : (s.setI w).faultPc = s.faultPc := rfl
@[simp] theorem State.setI_faultInsn (w : Word) : (s.setI w).faultInsn = s.faultInsn := rfl
@[simp] theorem State.setI_faultInfo (w : Word) : (s.setI w).faultInfo = s.faultInfo := rfl
@[simp] theorem State.setI_started (w : Word) : (s.setI w).started = s.started := rfl
@[simp] theorem State.setI_inputs (w : Word) : (s.setI w).inputs = s.inputs := rfl
@[simp] theorem State.setI_draws (w : Word) : (s.setI w).draws = s.draws := rfl

/-! ### writeBytes -/

@[simp] theorem State.writeBytes_v (a : Nat) (bs : List Byte) : (s.writeBytes a bs).v = s.v := rfl
@[simp] theorem State.writeBytes_i (a : Nat) (bs : List Byte) : (s.writeBytes a bs).i = s.i := rfl
@[simp] theorem State.writeBytes_pc (a : Nat) (bs : List Byte) : (s.writeBytes a bs).pc = s.pc := rfl
@[simp] theorem State.writeBytes_sp (a : Nat) (bs : List Byte) : (s.writeBytes a bs).sp = s.sp := rfl
@[simp] theorem State.writeBytes_stack (a : Nat) (bs : List Byte) : (s.writeBytes a bs).stack = s.stack := rfl
@[simp] theorem State.writeBytes_dt (a : Nat) (bs : List Byte) : (s.writeBytes a bs).dt = s.dt := rfl
@[simp] theorem State.writeBytes_st (a : Nat) (bs : List Byte) : (s.writeBytes a bs).st = s.st := rfl
@[simp] theorem State.writeBytes_mem (a : Nat) (bs : List Byte) : (s.writeBytes a bs).mem = s.mem.writeBytes a bs := rfl
@[simp] theorem State.writeBytes_disp (a : Nat) (bs : List Byte) : (s.writeBytes a bs).disp = s.disp := rfl
@[simp] theorem State.writeBytes_redraw (a : Nat) (bs : List Byte) : (s.writeBytes a bs).redraw = s.redraw := rfl
@[simp] theorem State.writeBytes_keys (a : Nat) (bs : List Byte) : (s.writeBytes a bs).keys = s.keys := rfl
@[simp] theorem State.writeBytes_sndx (a : Nat) (bs : List Byte) : (s.writeBytes a bs).sndx = s.sndx := rfl
@[simp] theorem State.writeBytes_waiting (a : Nat) (bs : List Byte) : (s.writeBytes a bs).waiting = s.waiting := rfl
@[simp] theorem State.writeBytes_faultCause (a : Nat) (bs : List Byte) : (s.writeBytes a bs).faultCause = s.faultCause := rfl
@[simp] theorem State.writeBytes_faultPc (a : Nat) (bs : List Byte) : (s.writeBytes a bs).faultPc = s.faultPc := rfl
@[simp] theorem State.writeBytes_faultInsn (a : Nat) (bs : List Byte) : (s.writeBytes a bs).faultInsn = s.faultInsn := rfl
@[simp] theorem State.writeBytes_faultInfo (a : Nat) (bs : List Byte) : (s.writeBytes a bs).faultInfo = s.faultInfo := rfl
@[simp] theorem State.writeBytes_started (a : Nat) (bs : List Byte) : (s.writeBytes a bs).started = s.started := rfl
@[simp] theorem State.writeBytes_inputs (a : Nat) (bs : List Byte) : (s.writeBytes a bs).inputs = s.inputs := rfl
@[simp] theorem State.writeBytes_draws (a : Nat) (bs : List Byte) : (s.writeBytes a bs).draws = s.draws := rfl

/-! ### loadRegsUpTo -/

@[simp] theorem State.loadRegsUpTo_i (x : Reg) : (s.loadRegsUpTo x).i = s.i := rfl
@[simp] theorem State.loadRegsUpTo_pc (x : Reg) : (s.loadRegsUpTo x).pc = s.pc := rfl
@[simp] theorem State.loadRegsUpTo_sp (x : Reg) : (s.loadRegsUpTo x).sp = s.sp := rfl
@[simp] theorem State.loadRegsUpTo_stack (x : Reg) : (s.loadRegsUpTo x).stack = s.stack := rfl
@[simp] theorem State.loadRegsUpTo_dt (x : Reg) : (s.loadRegsUpTo x).dt = s.dt := rfl
@[simp] theorem State.loadRegsUpTo_st (x : Reg) : (s.loadRegsUpTo x).st = s.st := rfl
@[simp] theorem State.loadRegsUpTo_mem (x : Reg) : (s.loadRegsUpTo x).mem = s.mem := rfl
@[simp] theorem State.loadRegsUpTo_disp (x : Reg) : (s.loadRegsUpTo x).disp = s.disp := rfl
@[simp] theorem State.loadRegsUpTo_redraw (x : Reg) : (s.loadRegsUpTo x).redraw = s.redraw := rfl
@[simp] theorem State.loadRegsUpTo_keys (x : Reg) : (s.loadRegsUpTo x).keys = s.keys := rfl
@[simp] theorem State.loadRegsUpTo_sndx (x : Reg) : (s.loadRegsUpTo x).sndx = s.sndx := rfl
@[simp] theorem State.loadRegsUpTo_waiting (x : Reg) : (s.loadRegsUpTo x).waiting = s.waiting := rfl
@[simp] theorem State.loadRegsUpTo_faultCause (x : Reg) : (s.loadRegsUpTo x).faultCause = s.faultCause := rfl
@[simp] theorem State.loadRegsUpTo_faultPc (x : Reg) : (s.loadRegsUpTo x).faultPc = s.faultPc := rfl
@[simp] theorem State.loadRegsUpTo_faultInsn (x : Reg) : (s.loadRegsUpTo x).faultInsn = s.faultInsn := rfl
@[simp] theorem State.loadRegsUpTo_faultInfo (x : Reg) : (s.loadRegsUpTo x).faultInfo = s.faultInfo := rfl
@[simp] theorem State.loadRegsUpTo_started (x : Reg) : (s.loadRegsUpTo x).started = s.started := rfl
@[simp] theorem State.loadRegsUpTo_inputs (x : Reg) : (s.loadRegsUpTo x).inputs = s.inputs := rfl
@[simp] theorem State.loadRegsUpTo_draws (x : Reg) : (s.loadRegsUpTo x).draws = s.draws := rfl

/-! ### showDraw -/

@[simp] theorem State.showDraw_i (d : Display × Bool) : (s.showDraw d).i = s.i := rfl
@[simp] theorem State.showDraw_pc (d : Display × Bool) : (s.showDraw d).pc = s.pc := rfl
@[simp] theorem State.showDraw_sp (d : Display × Bool) : (s.showDraw d).sp = s.sp := rfl
@[simp] theorem State.showDraw_stack (d : Display × Bool) : (s.showDraw d).stack = s.stack := rfl
@[simp] theorem State.showDraw_dt (d : Display × Bool) : (s.showDraw d).dt = s.dt := rfl
@[simp] theorem State.showDraw_st (d : Display × Bool) : (s.showDraw d).st = s.st := rfl
@[simp] theorem State.showDraw_mem (d : Display × Bool) : (s.showDraw d).mem = s.mem := rfl
@[simp] theorem State.showDraw_v (d : Display × Bool) : (s.showDraw d).v = s.v.set VF (hitFlag d.2) := rfl
@[simp] theorem State.showDraw_disp (d : Display × Bool) : (s.showDraw d).disp = d.1 := rfl
@[simp] theorem State.showDraw_redraw (d : Display × Bool) : (s.showDraw d).redraw = true := rfl
@[simp] theorem State.showDraw_keys (d : Display × Bool) : (s.showDraw d).keys = s.keys := rfl
@[simp] theorem State.showDraw_sndx (d : Display × Bool) : (s.showDraw d).sndx = s.sndx := rfl
@[simp] theorem State.showDraw_waiting (d : Display × Bool) : (s.showDraw d).waiting = s.waiting := rfl
@[simp] theorem State.showDraw_faultCause (d : Display × Bool) : (s.showDraw d).faultCause = s.faultCause := rfl
@[simp] theorem State.showDraw_faultPc (d : Display × Bool) : (s.showDraw d).faultPc = s.faultPc := rfl
@[simp] theorem State.showDraw_faultInsn (d : Display × Bool) : (s.showDraw d).faultInsn = s.faultInsn := rfl
@[simp] theorem State.showDraw_faultInfo (d : Display × Bool) : (s.showDraw d).faultInfo = s.faultInfo := rfl
@[simp] theorem State.showDraw_started (d : Display × Bool) : (s.showDraw d).started = s.started := rfl
@[simp] theorem State.showDraw_inputs (d : Display × Bool) : (s.showDraw d).inputs = s.inputs := rfl
@[simp] theorem State.showDraw_draws (d : Display × Bool) : (s.showDraw d).draws = s.draws := rfl

/-! ### raiseFault -/

@[simp] theorem raiseFault_v (c : FaultCause) (w f : Word) : (raiseFault c w f s).v = s.v := rfl
@[simp] theorem raiseFault_i (c : FaultCause) (w f : Word) : (raiseFault c w f s).i = s.i := rfl
@[simp] theorem raiseFault_pc (c : FaultCause) (w f : Word) : (raiseFault c w f s).pc = s.pc := rfl
@[simp] theorem raiseFault_sp (c : FaultCause) (w f : Word) : (raiseFault c w f s).sp = s.sp := rfl
@[simp] theorem raiseFault_stack (c : FaultCause) (w f : Word) : (raiseFault c w f s).stack = s.stack := rfl
@[simp] theorem raiseFault_dt (c : FaultCause) (w f : Word) : (raiseFault c w f s).dt = s.dt := rfl
@[simp] theorem raiseFault_st (c : FaultCause) (w f : Word) : (raiseFault c w f s).st = s.st := rfl
@[simp] theorem raiseFault_mem (c : FaultCause) (w f : Word) : (raiseFault c w f s).mem = s.mem := rfl
@[simp] theorem raiseFault_disp (c : FaultCause) (w f : Word) : (raiseFault c w f s).disp = s.disp := rfl
@[simp] theorem raiseFault_redraw (c : FaultCause) (w f : Word) : (raiseFault c w f s).redraw = s.redraw := rfl
@[simp] theorem raiseFault_keys (c : FaultCause) (w f : Word) : (raiseFault c w f s).keys = s.keys := rfl
@[simp] theorem raiseFault_sndx (c : FaultCause) (w f : Word) : (raiseFault c w f s).sndx = s.sndx := rfl
@[simp] theorem raiseFault_waiting (c : FaultCause) (w f : Word) : (raiseFault c w f s).waiting = false := rfl
@[simp] theorem raiseFault_faultCause (c : FaultCause) (w f : Word) : (raiseFault c w f s).faultCause = c := rfl
@[simp] theorem raiseFault_faultPc (c : FaultCause) (w f : Word) : (raiseFault c w f s).faultPc = s.pc := rfl
@[simp] theorem raiseFault_faultInsn (c : FaultCause) (w f : Word) : (raiseFault c w f s).faultInsn = w := rfl
@[simp] theorem raiseFault_faultInfo (c : FaultCause) (w f : Word) : (raiseFault c w f s).faultInfo = f := rfl
@[simp] theorem raiseFault_started (c : FaultCause) (w f : Word) : (raiseFault c w f s).started = s.started := rfl
@[simp] theorem raiseFault_inputs (c : FaultCause) (w f : Word) : (raiseFault c w f s).inputs = s.inputs := rfl
@[simp] theorem raiseFault_draws (c : FaultCause) (w f : Word) : (raiseFault c w f s).draws = s.draws := rfl

/-! ### prologue -/

@[simp] theorem prologue_v : (prologue s).v = s.v := rfl
@[simp] theorem prologue_i : (prologue s).i = s.i := rfl
@[simp] theorem prologue_pc : (prologue s).pc = s.pc := rfl
@[simp] theorem prologue_sp : (prologue s).sp = s.sp := rfl
@[simp] theorem prologue_stack : (prologue s).stack = s.stack := rfl
@[simp] theorem prologue_dt : (prologue s).dt = s.dt := rfl
@[simp] theorem prologue_st : (prologue s).st = s.st := rfl
@[simp] theorem prologue_mem : (prologue s).mem = s.mem := rfl
@[simp] theorem prologue_disp : (prologue s).disp = s.disp := rfl
@[simp] theorem prologue_redraw : (prologue s).redraw = false := rfl
@[simp] theorem prologue_keys : (prologue s).keys = s.keysIn := rfl
@[simp] theorem prologue_sndx : (prologue s).sndx = false := rfl
@[simp] theorem prologue_waiting : (prologue s).waiting = s.waiting := rfl
@[simp] theorem prologue_faultCause : (prologue s).faultCause = s.faultCause := rfl
@[simp] theorem prologue_faultPc : (prologue s).faultPc = s.faultPc := rfl
@[simp] theorem prologue_faultInsn : (prologue s).faultInsn = s.faultInsn := rfl
@[simp] theorem prologue_faultInfo : (prologue s).faultInfo = s.faultInfo := rfl
@[simp] theorem prologue_started : (prologue s).started = s.started := rfl
@[simp] theorem prologue_inputs : (prologue s).inputs = s.inputs := rfl
@[simp] theorem prologue_draws : (prologue s).draws = s.draws := rfl

/-! ### endStrobe -/

@[simp] theorem endStrobe_v : (endStrobe s).v = s.v := rfl
@[simp] theorem endStrobe_i : (endStrobe s).i = s.i := rfl
@[simp] theorem endStrobe_pc : (endStrobe s).pc = s.pc := rfl
@[simp] theorem endStrobe_sp : (endStrobe s).sp = s.sp := rfl
@[simp] theorem endStrobe_stack : (endStrobe s).stack = s.stack := rfl
@[simp] theorem endStrobe_dt : (endStrobe s).dt = s.dt := rfl
@[simp] theorem endStrobe_st : (endStrobe s).st = s.st := rfl
@[simp] theorem endStrobe_mem : (endStrobe s).mem = s.mem := rfl
@[simp] theorem endStrobe_disp : (endStrobe s).disp = s.disp := rfl
@[simp] theorem endStrobe_redraw : (endStrobe s).redraw = s.redraw := rfl
@[simp] theorem endStrobe_keys : (endStrobe s).keys = s.keys := rfl
@[simp] theorem endStrobe_sndx : (endStrobe s).sndx = s.sndx := rfl
@[simp] theorem endStrobe_waiting : (endStrobe s).waiting = s.waiting := rfl
@[simp] theorem endStrobe_faultCause : (endStrobe s).faultCause = s.faultCause := rfl
@[simp] theorem endStrobe_faultPc : (endStrobe s).faultPc = s.faultPc := rfl
@[simp] theorem endStrobe_faultInsn : (endStrobe s).faultInsn = s.faultInsn := rfl
@[simp] theorem endStrobe_faultInfo : (endStrobe s).faultInfo = s.faultInfo := rfl
@[simp] theorem endStrobe_started : (endStrobe s).started = true := rfl
@[simp] theorem endStrobe_inputs : (endStrobe s).inputs = s.inputs.tail := rfl
@[simp] theorem endStrobe_draws : (endStrobe s).draws = s.draws + 1 := rfl

/-! ### assertReset -/

@[simp] theorem State.assertReset_v (font : Vector Byte 80) : (s.assertReset font).v = State.reset.v := rfl
@[simp] theorem State.assertReset_i (font : Vector Byte 80) : (s.assertReset font).i = State.reset.i := rfl
@[simp] theorem State.assertReset_pc (font : Vector Byte 80) : (s.assertReset font).pc = State.reset.pc := rfl
@[simp] theorem State.assertReset_sp (font : Vector Byte 80) : (s.assertReset font).sp = State.reset.sp := rfl
@[simp] theorem State.assertReset_stack (font : Vector Byte 80) : (s.assertReset font).stack = State.reset.stack := rfl
@[simp] theorem State.assertReset_dt (font : Vector Byte 80) : (s.assertReset font).dt = State.reset.dt := rfl
@[simp] theorem State.assertReset_st (font : Vector Byte 80) : (s.assertReset font).st = State.reset.st := rfl
@[simp] theorem State.assertReset_disp (font : Vector Byte 80) : (s.assertReset font).disp = State.reset.disp := rfl
@[simp] theorem State.assertReset_redraw (font : Vector Byte 80) : (s.assertReset font).redraw = State.reset.redraw := rfl
@[simp] theorem State.assertReset_keys (font : Vector Byte 80) : (s.assertReset font).keys = State.reset.keys := rfl
@[simp] theorem State.assertReset_sndx (font : Vector Byte 80) : (s.assertReset font).sndx = State.reset.sndx := rfl
@[simp] theorem State.assertReset_waiting (font : Vector Byte 80) : (s.assertReset font).waiting = State.reset.waiting := rfl
@[simp] theorem State.assertReset_faultCause (font : Vector Byte 80) : (s.assertReset font).faultCause = State.reset.faultCause := rfl
@[simp] theorem State.assertReset_faultPc (font : Vector Byte 80) : (s.assertReset font).faultPc = State.reset.faultPc := rfl
@[simp] theorem State.assertReset_faultInsn (font : Vector Byte 80) : (s.assertReset font).faultInsn = State.reset.faultInsn := rfl
@[simp] theorem State.assertReset_faultInfo (font : Vector Byte 80) : (s.assertReset font).faultInfo = State.reset.faultInfo := rfl
@[simp] theorem State.assertReset_started (font : Vector Byte 80) : (s.assertReset font).started = State.reset.started := rfl
@[simp] theorem State.assertReset_mem (font : Vector Byte 80) : (s.assertReset font).mem = (State.resetWith font).mem := rfl
@[simp] theorem State.assertReset_inputs (font : Vector Byte 80) : (s.assertReset font).inputs = s.inputs := rfl
@[simp] theorem State.assertReset_draws (font : Vector Byte 80) : (s.assertReset font).draws = s.draws := rfl

end Sys2Proof.Machine
end

