-- ==== Sys2Proof/Laws/Memory.lean ====
section
/-! SUPPORT. The laws of memory: reads after writes, the canonical form, and the range check. -/

namespace Sys2Proof.Machine

/-! ## The glyph table -/

theorem defaultFont_length : defaultFont.length = 80 := by decide

theorem unlisted_above_font {a : Nat} (h : 0x50 ≤ a) : unlisted a = 0 := by
  simp [unlisted, defaultFont_length, h]

/-! ## Reads after writes -/

@[simp] theorem Memory.read_nil (a : Nat) : Memory.read [] a = unlisted a := rfl

theorem Memory.read_cons (k : Nat) (b : Byte) (m : Memory) (a : Nat) :
    Memory.read ((k, b) :: m) a = if k = a then b else m.read a := rfl

theorem Memory.read_without (m : Memory) (a a' : Nat) :
    (m.without a).read a' = if a' = a then unlisted a' else m.read a' := by
  induction m with
  | nil => simp [Memory.without]
  | cons c m ih =>
    obtain ⟨k, b⟩ := c
    by_cases hk : k = a
    · have : Memory.without ((k, b) :: m) a = Memory.without m a := by simp [Memory.without, hk]
      rw [this, ih, Memory.read_cons]
      split <;> simp_all
      intro h; omega
    · have : Memory.without ((k, b) :: m) a = (k, b) :: Memory.without m a := by simp [Memory.without, hk]
      rw [this, Memory.read_cons, Memory.read_cons, ih]
      by_cases h1 : k = a' <;> by_cases h2 : a' = a <;> simp_all

theorem Memory.without_ne (m : Memory) (a : Nat) : ∀ c ∈ m.without a, c.1 ≠ a := by
  intro c hc
  simpa [Memory.without] using (List.mem_filter.mp hc).2

theorem Memory.read_place (m : Memory) (a a' : Nat) (b : Byte) (h : ∀ c ∈ m, c.1 ≠ a) :
    (m.place a b).read a' = if a' = a then b else m.read a' := by
  induction m with
  | nil => simp [Memory.place, Memory.read_cons, eq_comm]
  | cons c m ih =>
    obtain ⟨k, v⟩ := c
    have hk : k ≠ a := h (k, v) (by simp)
    have ih := ih (fun c hc => h c (by simp [hc]))
    unfold Memory.place
    split
    · simp [Memory.read_cons, eq_comm]
    · rw [Memory.read_cons, Memory.read_cons, ih]
      by_cases h1 : k = a' <;> by_cases h2 : a' = a <;> simp_all

/-- One byte: a write changes the address written and no other. -/
theorem Memory.read_write (m : Memory) (a a' : Nat) (b : Byte) :
    (m.write a b).read a' = if a' = a then b else m.read a' := by
  unfold Memory.write
  split
  · rename_i h
    rw [Memory.read_without, h]
    split <;> simp_all
  · rw [Memory.read_place _ _ _ _ (m.without_ne a), Memory.read_without]
    split <;> simp_all

/-- Consecutive bytes: byte j lands at `a + j`, and every other address reads as before. -/
theorem Memory.read_writeBytes (m : Memory) (a : Nat) (bs : List Byte) (a' : Nat) :
    (m.writeBytes a bs).read a' = if h : a ≤ a' ∧ a' - a < bs.length then bs[a' - a] else m.read a' := by
  induction bs generalizing m a with
  | nil => simp [Memory.writeBytes]
  | cons b bs ih =>
    rw [Memory.writeBytes, ih, Memory.read_write]
    by_cases h1 : a + 1 ≤ a'
    · obtain ⟨j, rfl⟩ : ∃ j, a' = a + 1 + j := ⟨a' - (a + 1), by omega⟩
      have e1 : a + 1 + j - (a + 1) = j := by omega
      have e2 : a + 1 + j - a = j + 1 := by omega
      simp only [e1, e2, List.length_cons, List.getElem_cons_succ]
      by_cases h2 : j < bs.length
      · rw [dif_pos ⟨by omega, h2⟩, dif_pos ⟨by omega, by omega⟩]
      · rw [dif_neg (by omega), dif_neg (by omega), if_neg (by omega)]
    · rw [dif_neg (by omega)]
      by_cases h2 : a' = a
      · subst h2; simp
      · rw [if_neg h2, dif_neg (by omega)]

theorem State.read_writeBytes (s : State) (a : Nat) (bs : List Byte) (a' : Nat) :
    (s.writeBytes a bs).read a' = if h : a ≤ a' ∧ a' - a < bs.length then bs[a' - a] else s.read a' :=
  Memory.read_writeBytes s.mem a bs a'

/-! ## The canonical form -/

theorem Memory.wf_nil : Memory.wf [] = true := rfl

theorem Memory.wf_cons (k : Nat) (b : Byte) (m : Memory) :
    Memory.wf ((k, b) :: m) = true ↔
      (k < 0x1000 ∧ b ≠ unlisted k) ∧ (∀ c ∈ m, k < c.1) ∧ m.wf = true := by
  simp [Memory.wf, and_assoc]

theorem Memory.wf_without {m : Memory} (a : Nat) (h : m.wf = true) : (m.without a).wf = true := by
  induction m with
  | nil => exact h
  | cons c m ih =>
    obtain ⟨k, b⟩ := c
    obtain ⟨h1, h2, h3⟩ := (Memory.wf_cons k b m).mp h
    by_cases hk : k = a
    · have : Memory.without ((k, b) :: m) a = Memory.without m a := by simp [Memory.without, hk]
      rw [this]; exact ih h3
    · have : Memory.without ((k, b) :: m) a = (k, b) :: Memory.without m a := by simp [Memory.without, hk]
      rw [this, Memory.wf_cons]
      exact ⟨h1, fun c hc => h2 c (List.mem_filter.mp hc).1, ih h3⟩

theorem Memory.mem_place (m : Memory) (a : Nat) (b : Byte) (c : Host.Cell) :
    c ∈ m.place a b ↔ c = (a, b) ∨ c ∈ m := by
  induction m with
  | nil => simp [Memory.place]
  | cons d m ih =>
    unfold Memory.place
    split
    · simp
    · simp [ih]; tauto

theorem Memory.wf_place {m : Memory} {a : Nat} {b : Byte} (h : m.wf = true) (hm : ∀ c ∈ m, c.1 ≠ a)
    (ha : a < 0x1000) (hb : b ≠ unlisted a) : (m.place a b).wf = true := by
  induction m with
  | nil => simp [Memory.place, Memory.wf, ha, hb]
  | cons c m ih =>
    obtain ⟨k, v⟩ := c
    obtain ⟨h1, h2, h3⟩ := (Memory.wf_cons k v m).mp h
    have hk : k ≠ a := hm (k, v) (by simp)
    unfold Memory.place
    split
    · rename_i hlt
      refine (Memory.wf_cons a b _).mpr ⟨⟨ha, hb⟩, ?_, h⟩
      intro c hc
      rcases List.mem_cons.mp hc with rfl | hc
      · exact hlt
      · exact lt_trans hlt (h2 c hc)
    · refine (Memory.wf_cons k v _).mpr ⟨h1, ?_, ih h3 (fun c hc => hm c (by simp [hc]))⟩
      intro c hc
      rcases (Memory.mem_place m a b c).mp hc with rfl | hc
      · show k < a; omega
      · exact h2 c hc

/-- A write below 4096 keeps the canonical form. -/
theorem Memory.wf_write {m : Memory} {a : Nat} (b : Byte) (h : m.wf = true) (ha : a < 0x1000) :
    (m.write a b).wf = true := by
  unfold Memory.write
  split
  · exact Memory.wf_without a h
  · rename_i hb
    exact Memory.wf_place (Memory.wf_without a h) (m.without_ne a) ha hb

/-- A store of bytes that all lie below 4096 keeps the canonical form. -/
theorem Memory.wf_writeBytes {m : Memory} {a : Nat} {bs : List Byte} (h : m.wf = true) (ha : a + bs.length ≤ 0x1000) :
    (m.writeBytes a bs).wf = true := by
  induction bs generalizing m a with
  | nil => exact h
  | cons b bs ih =>
    simp only [List.length_cons] at ha
    exact ih (Memory.wf_write b h (by omega)) (by omega)

/-- Storing what the unlisted addresses read as lists nothing. -/
theorem Memory.writeBytes_unlisted {a : Nat} {bs : List Byte} (h : ∀ j (hj : j < bs.length), bs[j] = unlisted (a + j)) :
    Memory.writeBytes [] a bs = [] := by
  induction bs generalizing a with
  | nil => rfl
  | cons b bs ih =>
    have hb : Memory.write [] a b = [] := by
      have h0 := h 0 (by simp); simp only [List.getElem_cons_zero, Nat.add_zero] at h0
      simp [Memory.write, Memory.without, h0]
    rw [Memory.writeBytes, hb]
    refine ih fun j hj => ?_
    have hj' := h (j + 1) (by simpa using hj)
    rwa [List.getElem_cons_succ, ← Nat.add_assoc, Nat.add_right_comm] at hj'

/-! ## Reset with a given FONT -/

/-- The reset state reads FONT below 0x050 and 0 from there on (R45). -/
theorem State.read_resetWith (font : Vector Byte 80) (a : Nat) :
    (State.resetWith font).read a = if h : a < 80 then font[a] else 0 := by
  rw [State.resetWith, State.read_writeBytes]
  by_cases h : a < 80
  · rw [dif_pos ⟨by omega, by simpa using h⟩, dif_pos h]; simp
  · rw [dif_neg (by simp; omega), dif_neg h]
    show Memory.read [] a = 0
    rw [Memory.read_nil, unlisted_above_font (by omega)]

theorem State.wf_resetWith (font : Vector Byte 80) : (State.resetWith font).mem.wf = true :=
  Memory.wf_writeBytes Memory.wf_nil (by simp)

/-- The default FONT gives `State.reset` itself (entry 1). -/
theorem State.resetWith_default : State.resetWith defaultFontVector = State.reset := by
  have h : Memory.writeBytes [] 0 defaultFont = [] :=
    Memory.writeBytes_unlisted fun j hj => by simp [unlisted, List.getD, hj]
  exact congrArg (fun m => { State.reset with mem := m }) h

/-- A reset leaves FONT below 0x050 and 0 from there on, whatever memory held (R45, R135). -/
theorem State.read_assertReset (font : Vector Byte 80) (s : State) (a : Nat) :
    (State.assertReset font s).read a = if h : a < 80 then font[a] else 0 :=
  State.read_resetWith font a

/-! ## The range check -/

/-- The check of n bytes passes exactly when each of them is in range (R49). -/
theorem outOfRange_eq_none_iff (base n : Nat) : outOfRange base n = none ↔ ∀ r, r < n → base + r ≤ 0xFFF := by
  have : (n = 0 ∨ base + n ≤ 0x1000) ↔ ∀ r, r < n → base + r ≤ 0xFFF := by
    constructor
    · intro h r hr; omega
    · intro h
      rcases Nat.eq_zero_or_pos n with h0 | h0
      · exact .inl h0
      · have := h (n - 1) (by omega); right; omega
  rw [← this]
  simp [outOfRange, Config.memSize, or_iff_not_imp_left]

/-- The check reports the lowest out-of-range address of the access (R50). -/
theorem outOfRange_eq_some_iff (base n a : Nat) :
    outOfRange base n = some a ↔ 0 < n ∧ 0x1000 < base + n ∧ a = max base 0x1000 := by
  simp only [outOfRange, Config.memSize]
  split
  · simp; omega
  · simp; omega

/-- What the check reports is an address of the access above 0xFFF, and no lower address of the access is (R50). -/
theorem outOfRange_lowest {base n a : Nat} (h : outOfRange base n = some a) :
    0xFFF < a ∧ (∃ r, r < n ∧ a = base + r) ∧ ∀ r, r < n → 0xFFF < base + r → a ≤ base + r := by
  obtain ⟨h1, h2, rfl⟩ := (outOfRange_eq_some_iff base n a).mp h
  refine ⟨by omega, ⟨max base 0x1000 - base, by omega, by omega⟩, fun r _ _ => by omega⟩

end Sys2Proof.Machine
end

