-- ==== Sys2Proof/Laws/Ops.lean ====
section
/-! SUPPORT. One lemma for each shared operation that says once everything it can do. -/

namespace Sys2Proof.Machine

/-! ## Registers -/

theorem State.getV_eq (s : State) (x : Reg) : s.getV x = s.v[x] := rfl

/-- A register write changes that register and no other. -/
theorem State.getV_setV (s : State) (x r : Reg) (b : Byte) :
    (s.setV x b).getV r = if r = x then b else s.getV r := by
  simp only [State.getV, State.setV, Fin.getElem_fin, Vector.getElem_set, Fin.ext_iff, eq_comm]

theorem State.getV_setVF (s : State) (r : Reg) (b : Byte) :
    (s.setVF b).getV r = if r = VF then b else s.getV r := s.getV_setV VF r b

/-- The registers are read from `v` alone. -/
theorem State.getV_congr {s t : State} (h : s.v = t.v) (r : Reg) : s.getV r = t.getV r := by
  simp [State.getV, h]

@[simp] theorem State.getV_advance (s : State) (r : Reg) : s.advance.getV r = s.getV r := rfl

@[simp] theorem State.getV_setI (s : State) (w : Word) (r : Reg) : (s.setI w).getV r = s.getV r := rfl

@[simp] theorem State.read_advance (s : State) (a : Nat) : s.advance.read a = s.read a := rfl

/-- The load loop's first n turns: V[0]..V[n-1] come from memory, the others stay. -/
theorem getElem_foldl_loadReg (s : State) (n : Nat) (v : Vector Byte 16) (r : Reg) :
    ((List.range n).foldl s.loadReg v)[r] = if r.val < n then s.read (s.i.toNat + r.val) else v[r] := by
  induction n with
  | zero => simp
  | succ n ih =>
    rw [List.range_succ, List.foldl_append]
    simp only [List.foldl_cons, List.foldl_nil, State.loadReg, Fin.getElem_fin, Vector.getElem_setIfInBounds]
    rw [Fin.getElem_fin] at ih
    rw [ih]
    by_cases h : n = r.val
    · subst h; simp
    · rw [if_neg h]
      by_cases h' : r.val < n
      · rw [if_pos h', if_pos (by omega)]
      · rw [if_neg h', if_neg (by omega)]; rfl

/-- FX65's load: V[0]..V[x] come from memory, the others stay (R105). -/
theorem State.getV_loadRegsUpTo (s : State) (x r : Reg) :
    (s.loadRegsUpTo x).getV r = if r.val ≤ x.val then s.read (s.i.toNat + r.val) else s.getV r := by
  rw [State.getV, State.loadRegsUpTo, getElem_foldl_loadReg]
  simp only [Nat.lt_succ_iff, State.getV]

theorem State.regsUpTo_length (s : State) (x : Reg) : (s.regsUpTo x).length = x.val + 1 := by
  have := x.isLt
  simp [State.regsUpTo]

theorem State.regsUpTo_getElem (s : State) (x r : Reg) (h : r.val < (s.regsUpTo x).length) :
    (s.regsUpTo x)[r.val] = s.getV r := by
  simp [State.regsUpTo, State.getV]

/-! ## Faults -/

theorem State.halted_iff (s : State) : s.halted = true ↔ s.faultCause ≠ .none := by
  simp [State.halted]

theorem State.halted_eq_false_iff (s : State) : s.halted = false ↔ s.faultCause = .none := by
  simp [State.halted]

/-- An access of `n` bytes at I either goes on or is MEM_OOB (R49, R50). -/
theorem withDataRange_cases (i : Instr) (n : Nat) (s : State) (k : State → State) :
    ((n = 0 ∨ s.i.toNat + n ≤ 0x1000) ∧ withDataRange i n s k = k s) ∨
    (0 < n ∧ 0x1000 < s.i.toNat + n ∧
      withDataRange i n s k = raiseFault .memOob (encode i) (BitVec.ofNat 16 (max s.i.toNat 0x1000)) s) := by
  unfold withDataRange
  cases h : outOfRange s.i.toNat n with
  | none =>
    rw [outOfRange_eq_none_iff] at h
    refine .inl ⟨?_, rfl⟩
    rcases Nat.eq_zero_or_pos n with h0 | h0
    · exact .inl h0
    · have := h (n - 1) (by omega); omega
  | some a =>
    obtain ⟨h1, h2, rfl⟩ := (outOfRange_eq_some_iff _ _ _).mp h
    exact .inr ⟨h1, h2, rfl⟩

/-- A key index either is at most 15 and the instruction goes on, or is KEY_INDEX (R122). -/
theorem withKeyIndex_cases (i : Instr) (b : Byte) (s : State) (k : State → State) :
    (b.toNat ≤ 15 ∧ withKeyIndex i b s k = k s) ∨
    (15 < b.toNat ∧ withKeyIndex i b s k = raiseFault .keyIndex (encode i) (zext16 b) s) := by
  unfold withKeyIndex
  split_ifs with h
  · exact .inr ⟨h, rfl⟩
  · exact .inl ⟨by omega, rfl⟩

/-- A push either writes the entry at SP and goes on with SP + 1, or is STACK_OVERFLOW at SP = 16 (R81, R120). -/
theorem withPush_cases (i : Instr) (w : Word) (s : State) (k : State → State) :
    (∃ t : State, s.sp.val < 16 ∧ t = { s with stack := t.stack, sp := t.sp } ∧ t.sp.val = s.sp.val + 1 ∧
      (∀ j : Fin 16, t.stack[j] = if j.val = s.sp.val then w else s.stack[j]) ∧ withPush i w s k = k t) ∨
    (s.sp = 16 ∧ withPush i w s k = raiseFault .stackOverflow (encode i) 16 s) := by
  unfold withPush
  split_ifs with h
  · refine .inl ⟨_, h, rfl, rfl, fun j => ?_, rfl⟩
    simp only [Fin.getElem_fin, Vector.getElem_set, eq_comm]
  · exact .inr ⟨Fin.ext (by have := s.sp.isLt; show s.sp.val = 16; omega), rfl⟩

/-- A pop either gives the entry under SP and goes on with SP - 1, or is STACK_UNDERFLOW at SP = 0 (R79, R121). -/
theorem withPop_cases (i : Instr) (s : State) (k : Word → State → State) :
    (∃ (t : State) (j : Fin 16), t = { s with sp := t.sp } ∧ t.sp.val + 1 = s.sp.val ∧ j.val + 1 = s.sp.val ∧
      withPop i s k = k s.stack[j] t) ∨
    (s.sp = 0 ∧ withPop i s k = raiseFault .stackUnderflow (encode i) 0 s) := by
  have := s.sp.isLt
  unfold withPop
  split_ifs with h
  · exact .inr ⟨Fin.ext h, rfl⟩
  · exact .inl ⟨_, ⟨s.sp.val - 1, by omega⟩, rfl, by show s.sp.val - 1 + 1 = _; omega,
      by show s.sp.val - 1 + 1 = _; omega, rfl⟩

/-! ## Keys -/

theorem mem_pressedKeys (keys : BitVec 16) (k : Nat) : k ∈ pressedKeys keys ↔ k < 16 ∧ keys.getLsbD k = true := by
  simp [pressedKeys]

/-- No key is pressed exactly when KEYS is zero. -/
theorem pressedKeys_eq_nil_iff (keys : BitVec 16) : pressedKeys keys = [] ↔ keys = 0 := by
  constructor
  · intro h
    apply BitVec.eq_of_getLsbD_eq
    intro k hk
    have : k ∉ pressedKeys keys := by rw [h]; simp
    rw [mem_pressedKeys] at this
    simpa [hk] using this
  · rintro rfl
    simp [pressedKeys]

/-- KEY_SELECT picks one of the pressed keys, whatever the draw. -/
theorem keySelect_mem (draw : Nat) {ks : List Nat} (h : ks ≠ []) : keySelect draw ks ∈ ks := by
  have hl : 0 < ks.length := List.length_pos_iff.mpr h
  have := Nat.mod_lt draw hl
  rw [keySelect, List.getD_eq_getElem _ _ this]
  exact List.getElem_mem this

/-- Draw 0 picks the first of the list, the lowest pressed key. -/
theorem keySelect_zero (k : Nat) (ks : List Nat) : keySelect 0 (k :: ks) = k := by
  simp [keySelect]

end Sys2Proof.Machine
end

