-- ==== Sys2Proof/Laws/Display.lean ====
section
/-! SUPPORT. Pixels under the XOR engine's operations. -/

namespace Sys2Proof.Machine

/-- Two displays with the same pixels are the same. -/
theorem Display.ext_pixel {d e : Display} (h : ∀ x y, d.pixel x y = e.pixel x y) : d = e := by
  apply Vector.ext
  intro y hy
  apply BitVec.eq_of_getLsbD_eq
  intro x hx
  exact h ⟨x, hx⟩ ⟨y, hy⟩

theorem Display.pixel_blank (x : Fin 64) (y : Fin 32) : Display.blank.pixel x y = false := by
  simp [Display.blank, Display.pixel]

/-- XORing one pixel changes that pixel and no other (R109). -/
theorem Display.pixel_xorPixel (d : Display) (x x' : Fin 64) (y y' : Fin 32) (s : Bool) :
    (d.xorPixel x y s).pixel x' y' = (d.pixel x' y' ^^ (s && decide (x' = x ∧ y' = y))) := by
  have hx := x'.isLt
  simp only [Display.pixel, Display.xorPixel, Fin.getElem_fin, Vector.getElem_set]
  by_cases hy : y' = y
  · subst hy
    cases s <;> simp [Fin.ext_iff, eq_comm]
  · rw [if_neg (fun h => hy (Fin.ext h.symm))]
    simp [hy]

/-- One bit of a draw on a pixel. -/
theorem pixel_drawBit (cx cy : Nat) (b : Byte) (r : Nat) (acc : Display × Bool) (c : Nat) (x : Fin 64) (y : Fin 32) :
    Display.pixel (drawBit cx cy b r acc c).1 x y =
      (Display.pixel acc.1 x y ^^ (spriteBit b c && decide (x = wrapX (cx + c) ∧ y = wrapY (cy + r)))) :=
  Display.pixel_xorPixel _ _ _ _ _ _

/-- One bit of a draw on the collision: it hits exactly when the bit is set and its pixel is lit (R109). -/
theorem hit_drawBit (cx cy : Nat) (b : Byte) (r : Nat) (acc : Display × Bool) (c : Nat) :
    (drawBit cx cy b r acc c).2 = (acc.2 || (spriteBit b c && Display.pixel acc.1 (wrapX (cx + c)) (wrapY (cy + r)))) :=
  rfl

/-- The columns of a row land on different pixels (R107). -/
theorem wrapX_inj {cx c c' : Nat} (hc : c < 64) (hc' : c' < 64) : wrapX (cx + c) = wrapX (cx + c') ↔ c = c' := by
  simp only [wrapX, Fin.mk.injEq]; omega

/-- The rows of a sprite land on different rows (R107). -/
theorem wrapY_inj {cy r r' : Nat} (hr : r < 32) (hr' : r' < 32) : wrapY (cy + r) = wrapY (cy + r') ↔ r = r' := by
  simp only [wrapY, Fin.mk.injEq]; omega

/-- The column that lies `k` to the right of the sprite's left edge, for a pixel at distance k (R108). -/
theorem eq_wrapX_iff (cx c : Nat) (x : Fin 64) (hc : c < 64) : x = wrapX (cx + c) ↔ (x.val + 64 - cx % 64) % 64 = c := by
  have := x.isLt
  simp only [wrapX, Fin.ext_iff]; omega

/-- The row that lies `k` below the sprite's top edge, for a pixel at distance k (R108). -/
theorem eq_wrapY_iff (cy r : Nat) (y : Fin 32) (hr : r < 32) : y = wrapY (cy + r) ↔ (y.val + 32 - cy % 32) % 32 = r := by
  have := y.isLt
  simp only [wrapY, Fin.ext_iff]; omega

/-! ## The draw loop -/

/-- The sprite's set bits, by where a pixel lies from the sprite's corner. -/
theorem spriteCovers_iff (cx cy : Nat) (rows : Nat → Byte) (n : Nat) (x : Fin 64) (y : Fin 32) :
    spriteCovers cx cy rows n x y = true ↔ (y.val + 32 - cy % 32) % 32 < n ∧ (x.val + 64 - cx % 64) % 64 < 8 ∧
      spriteBit (rows ((y.val + 32 - cy % 32) % 32)) ((x.val + 64 - cx % 64) % 64) = true := by
  simp only [spriteCovers, spriteBit, Bool.and_eq_true, decide_eq_true_eq, and_assoc]

/-- The first m columns of row r, on every pixel. -/
theorem pixel_foldl_drawBit (cx cy : Nat) (b : Byte) {r m : Nat} (hr : r < 32) (hm : m ≤ 64) (acc : Display × Bool)
    (x : Fin 64) (y : Fin 32) :
    Display.pixel ((List.range m).foldl (drawBit cx cy b r) acc).1 x y =
      (Display.pixel acc.1 x y ^^ (decide ((y.val + 32 - cy % 32) % 32 = r) &&
        decide ((x.val + 64 - cx % 64) % 64 < m) && spriteBit b ((x.val + 64 - cx % 64) % 64))) := by
  induction m with
  | zero => simp
  | succ m ih =>
    rw [List.range_succ, List.foldl_append]
    simp only [List.foldl_cons, List.foldl_nil]
    rw [pixel_drawBit, ih (by omega)]
    simp only [eq_wrapX_iff cx m x (by omega), eq_wrapY_iff cy r y hr]
    generalize (x.val + 64 - cx % 64) % 64 = col
    generalize (y.val + 32 - cy % 32) % 32 = row
    by_cases hc : col = m
    · rw [hc]; by_cases hr : row = r <;> simp [hr]
    · have : col < m + 1 ↔ col < m := by omega
      simp [hc, this]

/-- The first m columns of row r, on the collision: the columns of a row do not meet, so each bit finds its pixel as the
row found it. -/
theorem hit_foldl_drawBit (cx cy : Nat) (b : Byte) {r m : Nat} (hr : r < 32) (hm : m ≤ 64) (acc : Display × Bool) :
    ((List.range m).foldl (drawBit cx cy b r) acc).2 = true ↔
      (acc.2 = true ∨ ∃ x y, Display.pixel acc.1 x y = true ∧ (y.val + 32 - cy % 32) % 32 = r ∧
        (x.val + 64 - cx % 64) % 64 < m ∧ spriteBit b ((x.val + 64 - cx % 64) % 64) = true) := by
  induction m with
  | zero => simp
  | succ m ih =>
    rw [List.range_succ, List.foldl_append]
    simp only [List.foldl_cons, List.foldl_nil]
    rw [hit_drawBit, pixel_foldl_drawBit _ _ _ hr (by omega)]
    have hx := (eq_wrapX_iff cx m (wrapX (cx + m)) (by omega)).mp rfl
    have hy := (eq_wrapY_iff cy r (wrapY (cy + r)) hr).mp rfl
    simp only [hx, hy, lt_irrefl, Bool.or_eq_true, ih (by omega), Bool.and_eq_true, decide_true, decide_false,
      Bool.true_and, Bool.false_and, Bool.xor_false]
    constructor
    · rintro ((h | ⟨x, y, h1, h2, h3, h4⟩) | ⟨h1, h2⟩)
      · exact .inl h
      · exact .inr ⟨x, y, h1, h2, by omega, h4⟩
      · exact .inr ⟨_, _, h2, hy, by omega, by rw [hx]; exact h1⟩
    · rintro (h | ⟨x, y, h1, h2, h3, h4⟩)
      · exact .inl (.inl h)
      · by_cases hc : (x.val + 64 - cx % 64) % 64 = m
        · right
          rw [← (eq_wrapX_iff cx m x (by omega)).mpr hc, ← (eq_wrapY_iff cy r y hr).mpr h2, ← hc]
          exact ⟨h4, h1⟩
        · exact .inl (.inr ⟨x, y, h1, h2, by omega, h4⟩)

/-- The first n rows, on every pixel: the sprite XORed onto the display (R107 to R109). -/
theorem pixel_foldl_drawRow (cx cy : Nat) (rows : Nat → Byte) {n : Nat} (hn : n ≤ 32) (acc : Display × Bool) (x : Fin 64)
    (y : Fin 32) :
    Display.pixel ((List.range n).foldl (fun acc r => drawRow cx cy acc (rows r) r) acc).1 x y =
      (Display.pixel acc.1 x y ^^ spriteCovers cx cy rows n x y) := by
  induction n with
  | zero => simp [spriteCovers]
  | succ n ih =>
    rw [List.range_succ, List.foldl_append]
    simp only [List.foldl_cons, List.foldl_nil]
    rw [drawRow, pixel_foldl_drawBit _ _ _ (by omega) (by omega), ih (by omega)]
    unfold spriteCovers spriteBit
    generalize (x.val + 64 - cx % 64) % 64 = col
    generalize (y.val + 32 - cy % 32) % 32 = row
    by_cases hc : row = n
    · rw [hc]; simp
    · have : row < n + 1 ↔ row < n := by omega
      simp [hc, this]

/-- The first n rows, on the collision: the rows do not meet, so it is 1 exactly when a set bit of the sprite meets a
pixel that was lit before the draw (R109). -/
theorem hit_foldl_drawRow (cx cy : Nat) (rows : Nat → Byte) {n : Nat} (hn : n ≤ 32) (acc : Display × Bool) :
    ((List.range n).foldl (fun acc r => drawRow cx cy acc (rows r) r) acc).2 = true ↔
      (acc.2 = true ∨ ∃ x y, Display.pixel acc.1 x y = true ∧ spriteCovers cx cy rows n x y = true) := by
  induction n with
  | zero => simp [spriteCovers]
  | succ n ih =>
    have hih := propext (ih (by omega))
    rw [List.range_succ, List.foldl_append]
    simp only [List.foldl_cons, List.foldl_nil]
    rw [drawRow, hit_foldl_drawBit _ _ _ (by omega) (by omega), hih]
    have hpix : ∀ x y, (y.val + 32 - cy % 32) % 32 = n →
        Display.pixel ((List.range n).foldl (fun acc r => drawRow cx cy acc (rows r) r) acc).1 x y =
          Display.pixel acc.1 x y := by
      intro x y hy
      rw [pixel_foldl_drawRow _ _ _ (by omega)]
      have : spriteCovers cx cy rows n x y = false := by
        rw [Bool.eq_false_iff, Ne, spriteCovers_iff]; omega
      rw [this]; simp
    constructor
    · rintro ((h | ⟨x, y, h1, h2⟩) | ⟨x, y, h1, h2, h3, h4⟩)
      · exact .inl h
      · rw [spriteCovers_iff] at h2
        exact .inr ⟨x, y, h1, by rw [spriteCovers_iff]; exact ⟨by omega, h2.2⟩⟩
      · rw [hpix x y h2] at h1
        exact .inr ⟨x, y, h1, by rw [spriteCovers_iff, h2]; exact ⟨by omega, h3, h4⟩⟩
    · rintro (h | ⟨x, y, h1, h2⟩)
      · exact .inl (.inl h)
      · rw [spriteCovers_iff] at h2
        by_cases hc : (y.val + 32 - cy % 32) % 32 = n
        · exact .inr ⟨x, y, by rw [hpix x y hc]; exact h1, hc, h2.2.1, by rw [← hc]; exact h2.2.2⟩
        · exact .inl (.inr ⟨x, y, h1, by rw [spriteCovers_iff]; exact ⟨by omega, h2.2⟩⟩)

end Sys2Proof.Machine
end

