-- ==== Sys2Proof/Laws/Exec.lean ====
section
/-! SUPPORT. What execute can do: one equation per instruction, and the shape every execute has. -/

namespace Sys2Proof.Machine

/-! ## One equation per instruction -/

variable (s : State)

theorem exec_cls : exec .cls s =
    .next { s with disp := Display.blank, redraw := true }.advance := rfl

theorem exec_ret : exec .ret s =
    .next (withPop .ret s (fun entry t => t.jump entry)) := rfl

theorem exec_jp (nnn : Addr) : exec (.jp nnn) s =
    .next (s.jump (zext16 nnn)) := rfl

theorem exec_call (nnn : Addr) : exec (.call nnn) s =
    .next (withPush (.call nnn) (s.pc + 2) s (fun t => t.jump (zext16 nnn))) := rfl

theorem exec_seByte (x : Reg) (kk : Byte) : exec (.seByte x kk) s =
    .next (s.skipIf (s.getV x == kk)) := rfl

theorem exec_sneByte (x : Reg) (kk : Byte) : exec (.sneByte x kk) s =
    .next (s.skipIf (s.getV x != kk)) := rfl

theorem exec_seReg (x y : Reg) : exec (.seReg x y) s =
    .next (s.skipIf (s.getV x == s.getV y)) := rfl

theorem exec_ldByte (x : Reg) (kk : Byte) : exec (.ldByte x kk) s =
    .next (s.setV x kk).advance := rfl

theorem exec_addByte (x : Reg) (kk : Byte) : exec (.addByte x kk) s =
    .next ((s.setV x (s.getV x + kk)).setVF (carryFlag (s.getV x) kk)).advance := rfl

theorem exec_ldReg (x y : Reg) : exec (.ldReg x y) s =
    .next (s.setV x (s.getV y)).advance := rfl

theorem exec_orReg (x y : Reg) : exec (.orReg x y) s =
    .next (s.setV x (s.getV x ||| s.getV y)).advance := rfl

theorem exec_andReg (x y : Reg) : exec (.andReg x y) s =
    .next (s.setV x (s.getV x &&& s.getV y)).advance := rfl

theorem exec_xorReg (x y : Reg) : exec (.xorReg x y) s =
    .next (s.setV x (s.getV x ^^^ s.getV y)).advance := rfl

theorem exec_addReg (x y : Reg) : exec (.addReg x y) s =
    .next ((s.setV x (s.getV x + s.getV y)).setVF (carryFlag (s.getV x) (s.getV y))).advance := rfl

theorem exec_sub (x y : Reg) : exec (.sub x y) s =
    .next (subAfterFlag x y (s.setVF (aboveFlag (s.getV x) (s.getV y)))) := rfl

theorem exec_shr (x : Reg) : exec (.shr x) s =
    .next (shrAfterFlag x (s.setVF (lowBitFlag (s.getV x)))) := rfl

theorem exec_subn (x y : Reg) : exec (.subn x y) s =
    .next (subnAfterFlag x y (s.setVF (aboveFlag (s.getV y) (s.getV x)))) := rfl

theorem exec_shl (x : Reg) : exec (.shl x) s =
    .next (shlAfterFlag x (s.setVF (highBitFlag (s.getV x)))) := rfl

theorem exec_sneReg (x y : Reg) : exec (.sneReg x y) s =
    .next (s.skipIf (s.getV x != s.getV y)) := rfl

theorem exec_ldI (nnn : Addr) : exec (.ldI nnn) s =
    .next (s.setI (zext16 nnn)).advance := rfl

theorem exec_jpV0 (nnn : Addr) : exec (.jpV0 nnn) s =
    .next (s.jump (zext16 (s.getV 0) + zext16 nnn)) := rfl

theorem exec_rnd (x : Reg) (kk : Byte) : exec (.rnd x kk) s =
    .next (s.setV x (s.rndIn &&& kk)).advance := rfl

theorem exec_drw (x y : Reg) (n : Nibble) : exec (.drw x y n) s =
    .next (withDataRange (.drw x y n) n.toNat s (fun t => (t.draw x y n).advance)) := rfl

theorem exec_skp (x : Reg) : exec (.skp x) s =
    .next (withKeyIndex (.skp x) (s.getV x) s (fun t => t.skipIf (t.keyPressed (t.getV x).toNat))) := rfl

theorem exec_sknp (x : Reg) : exec (.sknp x) s =
    .next (withKeyIndex (.sknp x) (s.getV x) s (fun t => t.skipIf (!t.keyPressed (t.getV x).toNat))) := rfl

theorem exec_ldVxDt (x : Reg) : exec (.ldVxDt x) s =
    .next (s.setV x s.dt).advance := rfl

theorem exec_ldVxK (x : Reg) : exec (.ldVxK x) s =
    .next (match pressedKeys s.keys with
    | [] => s
    | k :: ks => (s.setV x (BitVec.ofNat 8 (keySelect s.keyPick (k :: ks)))).advance) := rfl

theorem exec_ldDtVx (x : Reg) : exec (.ldDtVx x) s =
    .next { s with dt := s.getV x }.advance := rfl

theorem exec_ldStVx (x : Reg) : exec (.ldStVx x) s =
    .next { s with st := s.getV x }.advance := rfl

theorem exec_addIVx (x : Reg) : exec (.addIVx x) s =
    .next (s.setI (s.i + zext16 (s.getV x))).advance := rfl

theorem exec_ldFVx (x : Reg) : exec (.ldFVx x) s =
    .next (s.setI (zext16 (s.getV x) * 5)).advance := rfl

theorem exec_ldBVx (x : Reg) : exec (.ldBVx x) s =
    .next (withDataRange (.ldBVx x) 3 s (fun t => (t.writeBytes t.i.toNat (decimalDigits (t.getV x))).advance)) := rfl

theorem exec_ldMemVx (x : Reg) : exec (.ldMemVx x) s =
    .next (withDataRange (.ldMemVx x) (x.val + 1) s (fun t => (t.writeBytes t.i.toNat (t.regsUpTo x)).advance)) := rfl

theorem exec_ldVxMem (x : Reg) : exec (.ldVxMem x) s =
    .next (withDataRange (.ldVxMem x) (x.val + 1) s (fun t => (t.loadRegsUpTo x).advance)) := rfl

/-! ## The instructions that can take a fault, and the key wait: their cases -/

/-- 00EE either pops the entry under SP into PC, or is STACK_UNDERFLOW at SP = 0 (R79, R121). -/
theorem exec_ret_cases : (∃ (t : State) (j : Fin 16), t = { s with sp := t.sp } ∧ t.sp.val + 1 = s.sp.val ∧
      j.val + 1 = s.sp.val ∧ exec .ret s = .next (t.jump s.stack[j])) ∨
    (s.sp = 0 ∧ exec .ret s = .next (raiseFault .stackUnderflow (encode .ret) 0 s)) := by
  obtain ⟨u, j, h1, h2, h3, he⟩ | ⟨h1, he⟩ := withPop_cases .ret s (fun entry t => t.jump entry)
  · exact .inl ⟨u, j, h1, h2, h3, by rw [exec_ret, he]⟩
  · exact .inr ⟨h1, by rw [exec_ret, he]⟩

/-- 2NNN either pushes PC + 2 and jumps, or is STACK_OVERFLOW at SP = 16 (R81, R120). -/
theorem exec_call_cases (nnn : Addr) : (∃ t : State, s.sp.val < 16 ∧ t = { s with stack := t.stack, sp := t.sp } ∧
      t.sp.val = s.sp.val + 1 ∧ (∀ j : Fin 16, t.stack[j] = if j.val = s.sp.val then s.pc + 2 else s.stack[j]) ∧
      exec (.call nnn) s = .next (t.jump (zext16 nnn))) ∨
    (s.sp = 16 ∧ exec (.call nnn) s = .next (raiseFault .stackOverflow (encode (.call nnn)) 16 s)) := by
  obtain ⟨u, h1, h2, h3, h4, he⟩ | ⟨h1, he⟩ :=
    withPush_cases (.call nnn) (s.pc + 2) s (fun t => t.jump (zext16 nnn))
  · exact .inl ⟨u, h1, h2, h3, h4, by rw [exec_call, he]⟩
  · exact .inr ⟨h1, by rw [exec_call, he]⟩

/-- DXYN either draws, or is MEM_OOB (R107). -/
theorem exec_drw_cases (x y : Reg) (n : Nibble) :
    ((n.toNat = 0 ∨ s.i.toNat + n.toNat ≤ 0x1000) ∧ exec (.drw x y n) s = .next (s.draw x y n).advance) ∨
    (0 < n.toNat ∧ 0x1000 < s.i.toNat + n.toNat ∧ exec (.drw x y n) s =
      .next (raiseFault .memOob (encode (.drw x y n)) (BitVec.ofNat 16 (max s.i.toNat 0x1000)) s)) := by
  obtain ⟨h1, he⟩ | ⟨h1, h2, he⟩ := withDataRange_cases (.drw x y n) n.toNat s (fun t => (t.draw x y n).advance)
  · exact .inl ⟨h1, by rw [exec_drw, he]⟩
  · exact .inr ⟨h1, h2, by rw [exec_drw, he]⟩

/-- FX33 either stores the digits, or is MEM_OOB (R103). -/
theorem exec_ldBVx_cases (x : Reg) :
    (s.i.toNat + 3 ≤ 0x1000 ∧
      exec (.ldBVx x) s = .next (s.writeBytes s.i.toNat (decimalDigits (s.getV x))).advance) ∨
    (0x1000 < s.i.toNat + 3 ∧ exec (.ldBVx x) s =
      .next (raiseFault .memOob (encode (.ldBVx x)) (BitVec.ofNat 16 (max s.i.toNat 0x1000)) s)) := by
  obtain ⟨h1, he⟩ | ⟨h1, h2, he⟩ := withDataRange_cases (.ldBVx x) 3 s
    (fun t => (t.writeBytes t.i.toNat (decimalDigits (t.getV x))).advance)
  · exact .inl ⟨by omega, by rw [exec_ldBVx, he]⟩
  · exact .inr ⟨h2, by rw [exec_ldBVx, he]⟩

/-- FX55 either stores the registers, or is MEM_OOB (R104). -/
theorem exec_ldMemVx_cases (x : Reg) :
    (s.i.toNat + (x.val + 1) ≤ 0x1000 ∧
      exec (.ldMemVx x) s = .next (s.writeBytes s.i.toNat (s.regsUpTo x)).advance) ∨
    (0x1000 < s.i.toNat + (x.val + 1) ∧ exec (.ldMemVx x) s =
      .next (raiseFault .memOob (encode (.ldMemVx x)) (BitVec.ofNat 16 (max s.i.toNat 0x1000)) s)) := by
  obtain ⟨h1, he⟩ | ⟨h1, h2, he⟩ := withDataRange_cases (.ldMemVx x) (x.val + 1) s
    (fun t => (t.writeBytes t.i.toNat (t.regsUpTo x)).advance)
  · exact .inl ⟨by omega, by rw [exec_ldMemVx, he]⟩
  · exact .inr ⟨h2, by rw [exec_ldMemVx, he]⟩

/-- FX65 either loads the registers, or is MEM_OOB (R105). -/
theorem exec_ldVxMem_cases (x : Reg) :
    (s.i.toNat + (x.val + 1) ≤ 0x1000 ∧ exec (.ldVxMem x) s = .next (s.loadRegsUpTo x).advance) ∨
    (0x1000 < s.i.toNat + (x.val + 1) ∧ exec (.ldVxMem x) s =
      .next (raiseFault .memOob (encode (.ldVxMem x)) (BitVec.ofNat 16 (max s.i.toNat 0x1000)) s)) := by
  obtain ⟨h1, he⟩ | ⟨h1, h2, he⟩ := withDataRange_cases (.ldVxMem x) (x.val + 1) s
    (fun t => (t.loadRegsUpTo x).advance)
  · exact .inl ⟨by omega, by rw [exec_ldVxMem, he]⟩
  · exact .inr ⟨h2, by rw [exec_ldVxMem, he]⟩

/-- EX9E either skips or advances, or is KEY_INDEX (R110). -/
theorem exec_skp_cases (x : Reg) :
    ((s.getV x).toNat ≤ 15 ∧ exec (.skp x) s = .next (s.skipIf (s.keyPressed (s.getV x).toNat))) ∨
    (15 < (s.getV x).toNat ∧
      exec (.skp x) s = .next (raiseFault .keyIndex (encode (.skp x)) (zext16 (s.getV x)) s)) := by
  obtain ⟨h1, he⟩ | ⟨h1, he⟩ := withKeyIndex_cases (.skp x) (s.getV x) s
    (fun t => t.skipIf (t.keyPressed (t.getV x).toNat))
  · exact .inl ⟨h1, by rw [exec_skp, he]⟩
  · exact .inr ⟨h1, by rw [exec_skp, he]⟩

/-- EXA1 either skips or advances, or is KEY_INDEX (R111). -/
theorem exec_sknp_cases (x : Reg) :
    ((s.getV x).toNat ≤ 15 ∧ exec (.sknp x) s = .next (s.skipIf (!s.keyPressed (s.getV x).toNat))) ∨
    (15 < (s.getV x).toNat ∧
      exec (.sknp x) s = .next (raiseFault .keyIndex (encode (.sknp x)) (zext16 (s.getV x)) s)) := by
  obtain ⟨h1, he⟩ | ⟨h1, he⟩ := withKeyIndex_cases (.sknp x) (s.getV x) s
    (fun t => t.skipIf (!t.keyPressed (t.getV x).toNat))
  · exact .inl ⟨h1, by rw [exec_sknp, he]⟩
  · exact .inr ⟨h1, by rw [exec_sknp, he]⟩

/-- FX0A either changes nothing, no key being pressed, or writes the number of a pressed key (R113). -/
theorem exec_ldVxK_cases (x : Reg) :
    (s.keys = 0 ∧ exec (.ldVxK x) s = .next s) ∨
    (s.keys ≠ 0 ∧ ∃ k, k < 16 ∧ s.keys.getLsbD k = true ∧ k = keySelect s.keyPick (pressedKeys s.keys) ∧
      exec (.ldVxK x) s = .next (s.setV x (BitVec.ofNat 8 k)).advance) := by
  by_cases h : s.keys = 0
  · refine .inl ⟨h, ?_⟩
    rw [exec_ldVxK, (pressedKeys_eq_nil_iff _).mpr h]
  · have hn : pressedKeys s.keys ≠ [] := fun e => h ((pressedKeys_eq_nil_iff _).mp e)
    obtain ⟨h1, h2⟩ := (mem_pressedKeys _ _).mp (keySelect_mem s.keyPick hn)
    refine .inr ⟨h, _, h1, h2, rfl, ?_⟩
    rw [exec_ldVxK]
    cases hk : pressedKeys s.keys with
    | nil => exact absurd hk hn
    | cons a b => rfl

/-! ## The shape of execute -/

/-- Execute answers a next state: the fault of the instruction's own kind and nothing else (R123, R124), or a state in
which only the fields instructions write have changed (R44). -/
theorem exec_cases {i : Instr} {s t : State} (h : exec i s = .next t) :
    (∃ info, faultOf i ≠ .none ∧ t = raiseFault (faultOf i) (encode i) info s) ∨
    t = { s with
      v := t.v, i := t.i, pc := t.pc, sp := t.sp, stack := t.stack, dt := t.dt, st := t.st, mem := t.mem
      disp := t.disp, redraw := t.redraw } := by
  cases i with
  | ret =>
    rw [exec_ret] at h
    obtain ⟨u, j, hu, -, -, he⟩ | ⟨-, he⟩ := withPop_cases .ret s (fun entry t => t.jump entry)
    · rw [he] at h; cases h; right; rw [hu]; rfl
    · rw [he] at h; cases h; exact .inl ⟨_, by decide, rfl⟩
  | call nnn =>
    rw [exec_call] at h
    obtain ⟨u, -, hu, -, -, he⟩ | ⟨-, he⟩ := withPush_cases (.call nnn) (s.pc + 2) s (fun t => t.jump (zext16 nnn))
    · rw [he] at h; cases h; right; rw [hu]; rfl
    · rw [he] at h; cases h; exact .inl ⟨_, by simp [faultOf], rfl⟩
  | drw x y n =>
    rw [exec_drw] at h
    obtain ⟨-, he⟩ | ⟨-, -, he⟩ := withDataRange_cases (.drw x y n) n.toNat s (fun t => (t.draw x y n).advance)
    · rw [he] at h; cases h; exact .inr rfl
    · rw [he] at h; cases h; exact .inl ⟨_, by simp [faultOf], rfl⟩
  | ldBVx x =>
    rw [exec_ldBVx] at h
    obtain ⟨-, he⟩ | ⟨-, -, he⟩ := withDataRange_cases (.ldBVx x) 3 s
      (fun t => (t.writeBytes t.i.toNat (decimalDigits (t.getV x))).advance)
    · rw [he] at h; cases h; exact .inr rfl
    · rw [he] at h; cases h; exact .inl ⟨_, by simp [faultOf], rfl⟩
  | ldMemVx x =>
    rw [exec_ldMemVx] at h
    obtain ⟨-, he⟩ | ⟨-, -, he⟩ := withDataRange_cases (.ldMemVx x) (x.val + 1) s
      (fun t => (t.writeBytes t.i.toNat (t.regsUpTo x)).advance)
    · rw [he] at h; cases h; exact .inr rfl
    · rw [he] at h; cases h; exact .inl ⟨_, by simp [faultOf], rfl⟩
  | ldVxMem x =>
    rw [exec_ldVxMem] at h
    obtain ⟨-, he⟩ | ⟨-, -, he⟩ := withDataRange_cases (.ldVxMem x) (x.val + 1) s
      (fun t => (t.loadRegsUpTo x).advance)
    · rw [he] at h; cases h; exact .inr rfl
    · rw [he] at h; cases h; exact .inl ⟨_, by simp [faultOf], rfl⟩
  | skp x =>
    rw [exec_skp] at h
    obtain ⟨-, he⟩ | ⟨-, he⟩ := withKeyIndex_cases (.skp x) (s.getV x) s
      (fun t => t.skipIf (t.keyPressed (t.getV x).toNat))
    · rw [he] at h; cases h; exact .inr rfl
    · rw [he] at h; cases h; exact .inl ⟨_, by simp [faultOf], rfl⟩
  | sknp x =>
    rw [exec_sknp] at h
    obtain ⟨-, he⟩ | ⟨-, he⟩ := withKeyIndex_cases (.sknp x) (s.getV x) s
      (fun t => t.skipIf (!t.keyPressed (t.getV x).toNat))
    · rw [he] at h; cases h; exact .inr rfl
    · rw [he] at h; cases h; exact .inl ⟨_, by simp [faultOf], rfl⟩
  | ldVxK x =>
    rw [exec_ldVxK] at h
    cases hk : pressedKeys s.keys <;> rw [hk] at h <;> cases h <;> exact .inr rfl
  | cls | jp | seByte | sneByte | seReg | ldByte | addByte | ldReg | orReg | andReg | xorReg | addReg | sub | shr | subn
  | shl | sneReg | ldI | jpV0 | rnd | ldVxDt | ldDtVx | ldStVx | addIVx | ldFVx => cases h; exact .inr rfl

end Sys2Proof.Machine
end

