-- ==== Sys2Proof/Laws/Cycle.lean ====
section
/-! SUPPORT. What a cycle can do: the prologue, the fetch, the tick and one inversion lemma for step. -/

namespace Sys2Proof.Machine

/-! ## Prologue and fetch -/

@[simp] theorem State.getV_prologue (s : State) (r : Reg) : (prologue s).getV r = s.getV r := rfl

@[simp] theorem State.read_prologue (s : State) (a : Nat) : (prologue s).read a = s.read a := rfl

@[simp] theorem fetch_prologue (s : State) : fetch (prologue s) = fetch s := rfl

@[simp] theorem nextInstr_prologue (s : State) : nextInstr (prologue s) = nextInstr s := rfl

/-- A fetch succeeds exactly when PC is at most 0xFFE, and reads the word high byte first (R66). -/
theorem fetch_of_le {s : State} (h : s.pc.toNat ≤ 0xFFE) :
    fetch s = .ok (wordOfBytes (s.read s.pc.toNat) (s.read (s.pc.toNat + 1))) := by
  have : outOfRange s.pc.toNat 2 = none := (outOfRange_eq_none_iff _ _).mpr (fun r hr => by omega)
  simp [fetch, this]

theorem fetch_of_gt {s : State} (h : 0xFFE < s.pc.toNat) : fetch s = .error (max s.pc.toNat 0x1000) := by
  have : outOfRange s.pc.toNat 2 = some (max s.pc.toNat 0x1000) :=
    (outOfRange_eq_some_iff _ _ _).mpr ⟨by omega, by omega, rfl⟩
  simp [fetch, this]

/-- The fetch reads PC and memory alone. -/
theorem fetch_congr {s t : State} (hp : s.pc = t.pc) (hm : s.mem = t.mem) : fetch s = fetch t := by
  simp [fetch, State.read, hp, hm]

/-- The next cycle runs the instruction its fetched word decodes to. -/
theorem nextInstr_eq_some_iff (s : State) (i : Instr) :
    nextInstr s = some i ↔ ∃ w, fetch s = .ok w ∧ decode w = .ok i := by
  unfold nextInstr
  cases fetch s with
  | error a => simp
  | ok w => cases h : decode w <;> simp [h]

/-! ## Tick and epilogue -/

/-- A tick counts down by one and stops at 0. -/
theorem toNat_tick (b : Byte) : (if b = 0 then (0 : Byte) else b - 1).toNat = b.toNat - 1 := by
  split
  · rename_i h; rw [h]; rfl
  · rename_i h
    have h0 : b.toNat ≠ 0 := fun e => h (BitVec.eq_of_toNat_eq e)
    have := b.isLt
    rw [BitVec.toNat_sub]
    simp; omega

/-- Both ticks at once (R128, R129). -/
theorem tick_eq (s : State) : tick s = { s with
    dt := if s.dt = 0 then 0 else s.dt - 1
    sndx := s.sndx || decide (s.st = 1)
    st := if s.st = 0 then 0 else s.st - 1 } := by
  have hz : ∀ b : Byte, (0 < b.toNat) ↔ b ≠ 0 := fun b => by
    rw [Nat.pos_iff_ne_zero, Ne, Ne, ← BitVec.toNat_inj]; rfl
  have h1 : tickDelay s = { s with dt := if s.dt = 0 then 0 else s.dt - 1 } := by
    unfold tickDelay
    by_cases h : s.dt = 0
    · rw [if_neg (by rw [gt_iff_lt, hz]; simpa using h)]; simp [← h]
    · rw [if_pos (by rw [gt_iff_lt, hz]; exact h)]; rw [if_neg h]
  rw [tick, h1]
  unfold tickSound
  by_cases h : s.st = 0
  · rw [if_neg (by rw [gt_iff_lt, hz]; simpa using h)]; simp [h]
  · rw [if_pos (by rw [gt_iff_lt, hz]; exact h)]
    rw [if_neg h]
    by_cases h' : s.st = 1 <;> simp [h', Bool.or_comm]

/-- The epilogue at once (R69). -/
theorem epilogue_eq (i : Instr) (s : State) : epilogue i s = { s with
    waiting := isKeyWait i && decide (s.keys = 0)
    dt := if s.dt = 0 then 0 else s.dt - 1
    sndx := s.sndx || decide (s.st = 1)
    st := if s.st = 0 then 0 else s.st - 1 } := tick_eq _

theorem isKeyWait_iff (i : Instr) : isKeyWait i = true ↔ ∃ x, i = .ldVxK x := by
  cases i <;> simp [isKeyWait]

/-! ## Step -/

theorem step_halted {s : State} (h : s.faultCause ≠ .none) : step s = .next s := by
  simp [step, State.halted, h]

theorem step_running {s : State} (h : s.faultCause = .none) : step s = runCycle (prologue s) := by
  simp [step, State.halted, h]

/-- Everything a step of a running block can do: a fetch fault, a decode fault, a fault in execute, or a completed cycle
with its epilogue (R64, R123). -/
theorem step_cases {s t : State} (hr : s.faultCause = .none) (h : step s = .next t) :
    (∃ a, fetch s = .error a ∧ t = endStrobe (raiseFault .fetchOob 0 (BitVec.ofNat 16 a) (prologue s))) ∨
    (∃ w e, fetch s = .ok w ∧ decode w = .error e ∧ t = endStrobe (raiseFault .decode w 0 (prologue s))) ∨
    (∃ w i info, fetch s = .ok w ∧ decode w = .ok i ∧ faultOf i ≠ .none ∧
      exec i (prologue s) = .next (raiseFault (faultOf i) (encode i) info (prologue s)) ∧
      t = endStrobe (raiseFault (faultOf i) (encode i) info (prologue s))) ∨
    (∃ w i u, fetch s = .ok w ∧ decode w = .ok i ∧ exec i (prologue s) = .next u ∧ u.faultCause = .none ∧
      t = endStrobe (epilogue i u)) := by
  rw [step_running hr] at h
  unfold runCycle at h
  rw [fetch_prologue] at h
  cases hf : fetch s with
  | error a => rw [hf] at h; cases h; exact .inl ⟨a, rfl, rfl⟩
  | ok w =>
    rw [hf] at h
    cases hd : decode w with
    | error e => simp only [hd] at h; cases h; exact .inr (.inl ⟨w, e, rfl, hd, rfl⟩)
    | ok i =>
      simp only [hd] at h
      cases he : exec i (prologue s) with
      | next u =>
        rw [he] at h; cases h
        rcases exec_cases he with ⟨info, hfo, rfl⟩ | hu
        · refine .inr (.inr (.inl ⟨w, i, info, rfl, hd, hfo, he, ?_⟩))
          simp [State.halted, hfo]
        · have hc : u.faultCause = .none := by rw [hu]; exact hr
          refine .inr (.inr (.inr ⟨w, i, u, rfl, hd, he, hc, ?_⟩))
          simp [State.halted, hc]
      | fault f => cases f
      | refused r => rw [he] at h; cases h

/-- A cycle that decodes to `i` steps by exec of `i` (R64). -/
theorem step_of_decode {s u : State} {w : Word} {i : Instr} (hr : s.faultCause = .none) (hf : fetch s = .ok w)
    (hd : decode w = .ok i) (he : exec i (prologue s) = .next u) :
    step s = .next (endStrobe (if u.faultCause = .none then epilogue i u else u)) := by
  rw [step_running hr]
  unfold runCycle
  rw [fetch_prologue, hf]
  simp only [hd, he, retire]
  by_cases hu : u.faultCause = .none <;> simp [State.halted, hu]

/-- A cycle that completes executed the fetched instruction without a fault and then ran the epilogue (R64, R69). -/
theorem step_completed {s t : State} {i : Instr} (hr : s.faultCause = .none) (hn : nextInstr s = some i)
    (h : step s = .next t) (ht : t.faultCause = .none) :
    ∃ u, exec i (prologue s) = .next u ∧ u.faultCause = .none ∧ t = endStrobe (epilogue i u) := by
  obtain ⟨w, hf, hd⟩ := (nextInstr_eq_some_iff _ _).mp hn
  rcases step_cases hr h with ⟨a, hf', -⟩ | ⟨w', e, hf', hd', -⟩ | ⟨w', i', info, hf', hd', hne, -, rfl⟩ |
    ⟨w', i', u, hf', hd', he, hu, rfl⟩
  · rw [hf] at hf'; cases hf'
  · rw [hf] at hf'; cases hf'; rw [hd] at hd'; cases hd'
  · exact absurd ht hne
  · rw [hf] at hf'; cases hf'; rw [hd] at hd'; cases hd'; exact ⟨u, he, hu, rfl⟩

/-! ## Runs -/

theorem afterCycles_succ (k : Nat) (s t : State) :
    afterCycles (k + 1) s = some t ↔ ∃ u, step s = .next u ∧ afterCycles k u = some t := by
  rw [afterCycles]
  cases h : step s <;> simp

theorem run_succ (M : Host.Core) (k : Nat) (s : M.State) :
    Host.Core.run M (k + 1) s =
      match M.step s with
      | .next t => Host.Core.run M k t
      | .fault f => .fault f
      | .refused r => .refused r := by
  cases h : M.step s <;> simp only [Host.Core.run, h]

/-- The host's runs are these runs. -/
theorem run_core_of_afterCycles {k : Nat} {s t : State} (h : afterCycles k s = some t) :
    Host.Core.run Sys2Proof.core k s = Host.Outcome.next t := by
  induction k generalizing s with
  | zero => cases h; rfl
  | succ k ih =>
    obtain ⟨u, hu, hk⟩ := (afterCycles_succ k s t).mp h
    have e := run_succ Sys2Proof.core k s
    rw [show Sys2Proof.core.step s = Host.Outcome.next (σ := Sys2Proof.core.State) u from hu] at e
    exact e.trans (ih hk)

end Sys2Proof.Machine
end

