-- ==== Sys2Proof/Laws/PerInstr.lean ====
section
/-! SUPPORT. Families of statements about every instruction as syntax, one lemma per constructor. -/

namespace Sys2Proof.Laws.EncodesInItsRow

/-- The word of an instruction is selected by a row of the opcode table that bears its name (R68, R73). -/
def Statement (i : Instr) : Prop := ∃ r ∈ opcodeRows, r.selects (encode i) = true ∧ r.mnemonic = i.mnemonic

/-- A word of format `A` is selected by a row that fixes the top nibble. -/
theorem of_wordA (m : String) (op : Nibble) (nnn : Addr) (h : ⟨m, wordRRN op 0 0 0, 0xF000#16⟩ ∈ opcodeRows) :
    ∃ r ∈ opcodeRows, r.selects (wordA op nnn) = true ∧ r.mnemonic = m :=
  ⟨_, h, decide_eq_true ((select_op _ _).mpr (wordA_fields op nnn).1), rfl⟩

/-- A word of format `RK` whose row fixes the top nibble. -/
theorem of_wordRK (m : String) (op : Nibble) (x : Reg) (kk : Byte)
    (h : ⟨m, wordRRN op 0 0 0, 0xF000#16⟩ ∈ opcodeRows) :
    ∃ r ∈ opcodeRows, r.selects (wordRK op x kk) = true ∧ r.mnemonic = m :=
  ⟨_, h, decide_eq_true ((select_op _ _).mpr (wordRK_fields op x kk).1), rfl⟩

/-- A word of format `RF`: its row fixes the top nibble and the low byte. -/
theorem of_wordRF (m : String) (op : Nibble) (x : Reg) (kk : Byte)
    (h : ⟨m, wordRK op 0 kk, 0xF0FF#16⟩ ∈ opcodeRows) :
    ∃ r ∈ opcodeRows, r.selects (wordRK op x kk) = true ∧ r.mnemonic = m :=
  ⟨_, h, decide_eq_true ((select_op_kk _ _ _).mpr ⟨(wordRK_fields op x kk).1, (wordRK_fields op x kk).2.2⟩), rfl⟩

/-- A word of format `RR`: its row fixes the top nibble and the low nibble. -/
theorem of_wordRR (m : String) (op : Nibble) (x y : Reg) (n : Nibble)
    (h : ⟨m, wordRRN op 0 0 n, 0xF00F#16⟩ ∈ opcodeRows) :
    ∃ r ∈ opcodeRows, r.selects (wordRRN op x y n) = true ∧ r.mnemonic = m :=
  ⟨_, h, decide_eq_true ((select_op_n _ _ _).mpr ⟨(wordRRN_fields op x y n).1, (wordRRN_fields op x y n).2.2.2⟩), rfl⟩

theorem cls : Statement .cls := ⟨_, List.mem_cons_self, by decide, rfl⟩
theorem ret : Statement .ret := ⟨_, List.mem_cons_of_mem _ List.mem_cons_self, by decide, rfl⟩
theorem jp (nnn : Addr) : Statement (.jp nnn) := of_wordA "1NNN" 0x1#4 nnn (by decide)
theorem call (nnn : Addr) : Statement (.call nnn) := of_wordA "2NNN" 0x2#4 nnn (by decide)
theorem seByte (x : Reg) (kk : Byte) : Statement (.seByte x kk) := of_wordRK "3XKK" 0x3#4 x kk (by decide)
theorem sneByte (x : Reg) (kk : Byte) : Statement (.sneByte x kk) := of_wordRK "4XKK" 0x4#4 x kk (by decide)
theorem seReg (x y : Reg) : Statement (.seReg x y) := of_wordRR "5XY0" 0x5#4 x y 0x0#4 (by decide)
theorem ldByte (x : Reg) (kk : Byte) : Statement (.ldByte x kk) := of_wordRK "6XKK" 0x6#4 x kk (by decide)
theorem addByte (x : Reg) (kk : Byte) : Statement (.addByte x kk) := of_wordRK "7XKK" 0x7#4 x kk (by decide)
theorem ldReg (x y : Reg) : Statement (.ldReg x y) := of_wordRR "8XY0" 0x8#4 x y 0x0#4 (by decide)
theorem orReg (x y : Reg) : Statement (.orReg x y) := of_wordRR "8XY1" 0x8#4 x y 0x1#4 (by decide)
theorem andReg (x y : Reg) : Statement (.andReg x y) := of_wordRR "8XY2" 0x8#4 x y 0x2#4 (by decide)
theorem xorReg (x y : Reg) : Statement (.xorReg x y) := of_wordRR "8XY3" 0x8#4 x y 0x3#4 (by decide)
theorem addReg (x y : Reg) : Statement (.addReg x y) := of_wordRR "8XY4" 0x8#4 x y 0x4#4 (by decide)
theorem sub (x y : Reg) : Statement (.sub x y) := of_wordRR "8XY5" 0x8#4 x y 0x5#4 (by decide)
theorem shr (x : Reg) : Statement (.shr x) := of_wordRR "8XY6" 0x8#4 x 0 0x6#4 (by decide)
theorem subn (x y : Reg) : Statement (.subn x y) := of_wordRR "8XY7" 0x8#4 x y 0x7#4 (by decide)
theorem shl (x : Reg) : Statement (.shl x) := of_wordRR "8XYE" 0x8#4 x 0 0xE#4 (by decide)
theorem sneReg (x y : Reg) : Statement (.sneReg x y) := of_wordRR "9XY0" 0x9#4 x y 0x0#4 (by decide)
theorem ldI (nnn : Addr) : Statement (.ldI nnn) := of_wordA "ANNN" 0xA#4 nnn (by decide)
theorem jpV0 (nnn : Addr) : Statement (.jpV0 nnn) := of_wordA "BNNN" 0xB#4 nnn (by decide)
theorem rnd (x : Reg) (kk : Byte) : Statement (.rnd x kk) := of_wordRK "CXKK" 0xC#4 x kk (by decide)
theorem drw (x y : Reg) (n : Nibble) : Statement (.drw x y n) :=
  ⟨⟨"DXYN", wordRRN 0xD#4 0 0 0, 0xF000#16⟩, by decide,
    decide_eq_true ((select_op _ _).mpr (wordRRN_fields 0xD#4 x y n).1), rfl⟩
theorem skp (x : Reg) : Statement (.skp x) := of_wordRF "EX9E" 0xE#4 x 0x9E#8 (by decide)
theorem sknp (x : Reg) : Statement (.sknp x) := of_wordRF "EXA1" 0xE#4 x 0xA1#8 (by decide)
theorem ldVxDt (x : Reg) : Statement (.ldVxDt x) := of_wordRF "FX07" 0xF#4 x 0x07#8 (by decide)
theorem ldVxK (x : Reg) : Statement (.ldVxK x) := of_wordRF "FX0A" 0xF#4 x 0x0A#8 (by decide)
theorem ldDtVx (x : Reg) : Statement (.ldDtVx x) := of_wordRF "FX15" 0xF#4 x 0x15#8 (by decide)
theorem ldStVx (x : Reg) : Statement (.ldStVx x) := of_wordRF "FX18" 0xF#4 x 0x18#8 (by decide)
theorem addIVx (x : Reg) : Statement (.addIVx x) := of_wordRF "FX1E" 0xF#4 x 0x1E#8 (by decide)
theorem ldFVx (x : Reg) : Statement (.ldFVx x) := of_wordRF "FX29" 0xF#4 x 0x29#8 (by decide)
theorem ldBVx (x : Reg) : Statement (.ldBVx x) := of_wordRF "FX33" 0xF#4 x 0x33#8 (by decide)
theorem ldMemVx (x : Reg) : Statement (.ldMemVx x) := of_wordRF "FX55" 0xF#4 x 0x55#8 (by decide)
theorem ldVxMem (x : Reg) : Statement (.ldVxMem x) := of_wordRF "FX65" 0xF#4 x 0x65#8 (by decide)

end Sys2Proof.Laws.EncodesInItsRow
end

