-- ==== Sys2Proof/Tests/Slice0.lean ====
section
/-! SUPPORT. Tests. The well-formedness smoke test, a word of every row of the opcode table written out bit by bit from
the spec's encoding (30_encoding.md), single steps whose results stand in spec/95_test_vectors.md, and for every
obligation with hypotheses a witness that meets them, at the ends of their ranges. -/

namespace Sys2Proof.Tests

open Sys2Proof.Machine

/-! ## Well-formedness

The operand types carry the ranges of R67, so there is no ill-formed term for a check to refuse: none can be written. -/

theorem test_no_ill_formed_term : ∀ i : Instr, i.wellFormed = true := by
  have hr : ∀ x : Reg, regInRange x = true := by decide
  have hn : ∀ n : Nibble, nibbleInRange n = true := by decide
  have ha : ∀ a : Addr, addrInRange a = true := fun a => decide_eq_true (by have := a.isLt; omega)
  have hb : ∀ b : Byte, byteInRange b = true := fun b => decide_eq_true (by have := b.isLt; omega)
  intro i
  cases i <;> simp [Instr.wellFormed, hr, hn, ha, hb]

/-! ## Words written out from the encodings of R71 and R73 -/

theorem test_decode_flow_words :
    decode 0b0000_0000_1110_0000#16 = .ok .cls ∧ decode 0b0000_0000_1110_1110#16 = .ok .ret ∧
    decode 0b0001_0010_0011_0100#16 = .ok (.jp 0x234) ∧ decode 0b0010_1010_1011_1100#16 = .ok (.call 0xABC) ∧
    decode 0b0011_0011_0100_0010#16 = .ok (.seByte 3 0x42) ∧ decode 0b0100_1111_0000_0001#16 = .ok (.sneByte 15 0x01) ∧
    decode 0b0101_0001_0010_0000#16 = .ok (.seReg 1 2) ∧ decode 0b1001_0111_1000_0000#16 = .ok (.sneReg 7 8) ∧
    decode 0b1011_0011_0000_0101#16 = .ok (.jpV0 0x305) := by decide

theorem test_decode_alu_words :
    decode 0b0110_1010_0010_1011#16 = .ok (.ldByte 10 0x2B) ∧ decode 0b0111_0000_0000_1010#16 = .ok (.addByte 0 10) ∧
    decode 0b1000_0001_0010_0000#16 = .ok (.ldReg 1 2) ∧ decode 0b1000_0001_0010_0001#16 = .ok (.orReg 1 2) ∧
    decode 0b1000_0001_0010_0010#16 = .ok (.andReg 1 2) ∧ decode 0b1000_0001_0010_0011#16 = .ok (.xorReg 1 2) ∧
    decode 0b1000_0001_0010_0100#16 = .ok (.addReg 1 2) ∧ decode 0b1000_0001_0010_0101#16 = .ok (.sub 1 2) ∧
    decode 0b1000_0001_0010_0110#16 = .ok (.shr 1) ∧ decode 0b1000_0001_0010_0111#16 = .ok (.subn 1 2) ∧
    decode 0b1000_0001_0010_1110#16 = .ok (.shl 1) ∧ decode 0b1100_0011_0000_1111#16 = .ok (.rnd 3 0x0F) := by decide

theorem test_decode_memory_and_display_words :
    decode 0b1010_0010_1111_0000#16 = .ok (.ldI 0x2F0) ∧ decode 0b1101_0001_0010_0101#16 = .ok (.drw 1 2 5) ∧
    decode 0b1111_0100_0001_1110#16 = .ok (.addIVx 4) ∧ decode 0b1111_1010_0010_1001#16 = .ok (.ldFVx 10) ∧
    decode 0b1111_0001_0011_0011#16 = .ok (.ldBVx 1) ∧ decode 0b1111_0011_0101_0101#16 = .ok (.ldMemVx 3) ∧
    decode 0b1111_1111_0110_0101#16 = .ok (.ldVxMem 15) := by decide

theorem test_decode_key_and_timer_words :
    decode 0b1110_0101_1001_1110#16 = .ok (.skp 5) ∧ decode 0b1110_0101_1010_0001#16 = .ok (.sknp 5) ∧
    decode 0b1111_0011_0000_0111#16 = .ok (.ldVxDt 3) ∧ decode 0b1111_0010_0000_1010#16 = .ok (.ldVxK 2) ∧
    decode 0b1111_0001_0001_0101#16 = .ok (.ldDtVx 1) ∧ decode 0b1111_0001_0001_1000#16 = .ok (.ldStVx 1) := by decide

/-- Rows of 2.1 to 2.6 that are decode faults, and the byte order of R51: the first byte is the high one. -/
theorem test_decode_rejects :
    decode 0x0123 = .error .family0 ∧ decode 0x00E1 = .error .family0 ∧ decode 0x5121 = .error .family5 ∧
    decode 0x8128 = .error .family8 ∧ decode 0x812F = .error .family8 ∧ decode 0x912F = .error .family9 ∧
    decode 0xE59F = .error .familyE ∧ decode 0xF008 = .error .familyF ∧ decode 0xF0FF = .error .familyF ∧
    decodeBytes [0x00, 0xE0, 0x12] = .ok (.cls, [0x12]) ∧ decodeBytes [0x12] = .error .truncated := by decide

/-- The text and the image bytes of instructions of the programs P1 to P4 (95_test_vectors.md, Part 3). -/
theorem test_assembler_text :
    (Instr.drw 0 1 2).text = "DRW V0, V1, 2" ∧ (Instr.ldMemVx 1).text = "LD [I], V1" ∧
    (Instr.addByte 1 0xFF).text = "ADD V1, 0xFF" ∧ (Instr.jp 0x204).text = "JP 0x204" ∧
    assemble [.ldI 0x300, .ldByte 0 0xFE, .ldBVx 0, .ldVxMem 2] = [0xA3, 0x00, 0x60, 0xFE, 0xF0, 0x33, 0xF2, 0x65] := by
  decide

theorem test_table_word :
    decodeTableWord 16 0xD015 = some (.drw 0 1 5) ∧ decodeTableWord 16 0x5121 = none ∧
    nextInstr (State.reset.withFetchWord 16 0xD015) = some (.drw 0 1 5) := by decide

/-! ## Single steps (95_test_vectors.md, Part 2)

`at'` is the start state of those tables: reset, with the word stored high byte first at PC and one strobe's inputs. -/

/-- The reset state with `w` at PC = `pc`, and the strobe's key mask `keys` and random byte `rnd`. -/
def at' (pc : Word) (w : Nat) (keys : BitVec 16) (rnd : Byte) : State :=
  ({ State.reset with pc := pc }.withFetchWord 16 w).drive [⟨keys, rnd, 0⟩]

/-- The same at 0x200 with no key pressed and `rnd_in` = 0. -/
def start (w : Nat) : State := at' 0x200 w 0 0

/-- Two general registers given values. -/
def with2 (s : State) (x : Reg) (a : Byte) (y : Reg) (b : Byte) : State := (s.setV x a).setV y b

/-- What one step leaves, looked at by `f`. -/
def see {α : Type} (s : State) (f : State → α) : Option α := (afterCycles 1 s).map f

/-- Two registers and PC. -/
def regs (x y : Reg) (s : State) : Byte × Byte × Word := (s.getV x, s.getV y, s.pc)

/-- The fault registers and PC. -/
def faults (s : State) : FaultCause × Word × Word × Word × Word := (s.faultCause, s.faultPc, s.faultInsn, s.faultInfo, s.pc)

/-! ### The cycle (2.1) -/

theorem test_fetch_at_last_word : see (at' 0xFFE 0x6001 0 0) (regs 0 1) = some (1, 0, 0x1000) := by decide

theorem test_fetch_oob :
    see { start 0 with pc := 0xFFF } faults = some (.fetchOob, 0xFFF, 0, 0x1000, 0xFFF) ∧
    see { start 0 with pc := 0x10FE } faults = some (.fetchOob, 0x10FE, 0, 0x10FE, 0x10FE) := by decide

theorem test_zero_word_is_a_decode_fault : see (start 0) faults = some (.decode, 0x200, 0, 0, 0x200) := by decide

theorem test_decode_fault_does_not_tick :
    see { start 0x5121 with dt := 5, st := 1, redraw := true } (fun t => (t.dt, t.st, t.sndx, t.redraw, t.faultInsn)) =
      some (5, 1, false, false, 0x5121) := by decide

theorem test_tick_and_prologue :
    see { start 0x6000 with dt := 5, st := 1, redraw := true, sndx := false } (fun t => (t.dt, t.st, t.sndx, t.redraw)) =
      some (4, 0, true, false) ∧
    see { start 0x6000 with st := 2, sndx := true } (fun t => (t.st, t.sndx)) = some (1, false) := by decide

theorem test_halted_block_stays :
    step { start 0x6001 with faultCause := .decode, dt := 5 } = .next { start 0x6001 with faultCause := .decode, dt := 5 } :=
  rfl

/-! ### Control transfer (2.2) -/

theorem test_ret :
    see { start 0x00EE with sp := 1, stack := State.reset.stack.set 0 0x202 } (fun t => (t.pc, t.sp)) = some (0x202, 0) ∧
    see { start 0x00EE with sp := 16, stack := State.reset.stack.set 15 0x8AE } (fun t => (t.pc, t.sp)) =
      some (0x8AE, 15) := by decide

theorem test_ret_underflow : see (start 0x00EE) faults = some (.stackUnderflow, 0x200, 0x00EE, 0, 0x200) := by decide

theorem test_jp : see (start 0x1FFF) (·.pc) = some 0xFFF := by decide

theorem test_call :
    see (at' 0xFFE 0x2300 0 0) (fun t => (t.pc, t.sp, t.stack[0])) = some (0x300, 1, 0x1000) ∧
    see { start 0x2300 with sp := 15 } (fun t => (t.pc, t.sp, t.stack[15])) = some (0x300, 16, 0x202) := by decide

theorem test_call_overflow :
    see { start 0x2300 with sp := 16 } faults = some (.stackOverflow, 0x200, 0x2300, 16, 0x200) := by decide

theorem test_skip_on_byte :
    see ((start 0x3342).setV 3 0x42) (·.pc) = some 0x204 ∧ see ((start 0x3342).setV 3 0x41) (·.pc) = some 0x202 ∧
    see ((start 0x4342).setV 3 0x41) (·.pc) = some 0x204 ∧ see ((start 0x4342).setV 3 0x42) (·.pc) = some 0x202 := by
  decide

theorem test_skip_on_registers :
    see (with2 (at' 0x300 0x5120 0 0) 1 7 2 7) (·.pc) = some 0x304 ∧
    see (with2 (start 0x5120) 1 7 2 8) (·.pc) = some 0x202 ∧
    see (with2 (at' 0x300 0x9120 0 0) 1 7 2 8) (·.pc) = some 0x304 ∧
    see (with2 (start 0x9120) 1 7 2 7) (·.pc) = some 0x202 := by decide

theorem test_jp_v0 : see ((start 0xBFFF).setV 0 0xFF) (·.pc) = some 0x10FE := by decide

/-! ### Registers and ALU (2.3) -/

theorem test_ld_byte : see (start 0x6A2B) (regs 10 15) = some (0x2B, 0, 0x202) := by decide

theorem test_add_byte :
    see ((start 0x700A).setV 0 250) (regs 0 15) = some (4, 1, 0x202) ∧
    see ((start 0x7F10).setV 15 0xF8) (regs 15 0) = some (1, 0, 0x202) := by decide

theorem test_ld_reg : see (with2 (start 0x8120) 1 0 2 0x99) (regs 1 2) = some (0x99, 0x99, 0x202) := by decide

theorem test_or : see ((with2 (start 0x8121) 1 0xF0 2 0x0F).setV 15 0x33) (regs 1 15) = some (0xFF, 0x33, 0x202) := by
  decide

theorem test_and : see ((with2 (start 0x8122) 1 0xF0 2 0x3C).setV 15 0x33) (regs 1 15) = some (0x30, 0x33, 0x202) := by
  decide

theorem test_xor : see ((with2 (start 0x8123) 1 0xF0 2 0x3C).setV 15 0x33) (regs 1 15) = some (0xCC, 0x33, 0x202) := by
  decide

theorem test_add_reg :
    see (with2 (start 0x8124) 1 200 2 100) (regs 1 15) = some (0x2C, 1, 0x202) ∧
    see (with2 (start 0x81F4) 1 2 15 0xFF) (regs 1 15) = some (1, 1, 0x202) := by decide

theorem test_sub :
    see (with2 (start 0x8015) 0 5 1 10) (regs 0 15) = some (251, 0, 0x202) ∧
    see (with2 (start 0x8015) 0 10 1 5) (regs 0 15) = some (5, 1, 0x202) ∧
    see (with2 (start 0x8015) 0 7 1 7) (regs 0 15) = some (0, 0, 0x202) := by decide

theorem test_sub_aliasing :
    see (with2 (start 0x8F15) 15 9 1 3) (regs 15 1) = some (0xFE, 3, 0x202) ∧
    see (with2 (start 0x81F5) 1 9 15 3) (regs 1 15) = some (8, 1, 0x202) ∧
    see (with2 (start 0x81F5) 1 2 15 3) (regs 1 15) = some (2, 0, 0x202) := by decide

theorem test_shr :
    see (with2 (start 0x8176) 1 0xFF 7 0) (regs 1 15) = some (0x7F, 1, 0x202) ∧
    see ((start 0x8F06).setV 15 3) (regs 15 0) = some (0, 0, 0x202) := by decide

theorem test_subn :
    see (with2 (start 0x8127) 1 3 2 10) (regs 1 15) = some (7, 1, 0x202) ∧
    see (with2 (start 0x8127) 1 10 2 3) (regs 1 15) = some (0xF9, 0, 0x202) := by decide

theorem test_subn_aliasing :
    see (with2 (start 0x8F17) 15 2 1 9) (regs 15 1) = some (8, 9, 0x202) ∧
    see (with2 (start 0x81F7) 1 2 15 9) (regs 1 15) = some (0xFF, 1, 0x202) := by decide

theorem test_shl :
    see ((start 0x810E).setV 1 0x81) (regs 1 15) = some (2, 1, 0x202) ∧
    see ((start 0x8F0E).setV 15 0x80) (regs 15 0) = some (2, 0, 0x202) := by decide

theorem test_rnd :
    see (at' 0x200 0xC30F 0 0xA7) (regs 3 15) = some (7, 0, 0x202) ∧
    see (at' 0x200 0xC3FF 0 0x5A) (regs 3 15) = some (0x5A, 0, 0x202) := by decide

/-! ### Index register and memory (2.4) -/

theorem test_ld_i : see (start 0xA2F0) (fun t => (t.i, t.pc)) = some (0x2F0, 0x202) := by decide

theorem test_add_i :
    see ({ start 0xF41E with i := 0xFFFF }.setV 4 2) (fun t => (t.i, t.getV 15)) = some (1, 0) ∧
    see ({ start 0xF41E with i := 0xFFF }.setV 4 1) (fun t => (t.i, t.getV 15)) = some (0x1000, 0) := by decide

theorem test_ld_f :
    see ((start 0xFA29).setV 10 0x0A) (·.i) = some 0x032 ∧ see ((start 0xF129).setV 1 0xFF) (·.i) = some 0x4FB := by decide

theorem test_bcd :
    see ({ start 0xF033 with i := 0x300 }.setV 0 254) (fun t => (t.read 0x300, t.read 0x301, t.read 0x302)) =
      some (2, 5, 4) ∧
    see ({ start 0xF033 with i := 0xFFD }.setV 0 7) (·.mem) = some [(0x200, 0xF0), (0x201, 0x33), (0xFFF, 7)] := by decide

theorem test_bcd_oob : see { start 0xF033 with i := 0xFFFF } faults = some (.memOob, 0x200, 0xF033, 0xFFFF, 0x200) := by
  decide

theorem test_store :
    see ({ start 0xF055 with i := 0xFFF }.setV 0 0xAB) (fun t => (t.read 0xFFF, t.i)) = some (0xAB, 0xFFF) ∧
    see { start 0xF155 with i := 0xFFF } faults = some (.memOob, 0x200, 0xF155, 0x1000, 0x200) := by decide

theorem test_load :
    see { (start 0xFF65).writeBytes 0xFF0 [1] with i := 0xFF0 } (regs 0 1) = some (1, 0, 0x202) ∧
    see { start 0xFF65 with i := 0xFF1 } faults = some (.memOob, 0x200, 0xFF65, 0x1000, 0x200) ∧
    see (start 0xF065) (regs 0 1) = some (0xF0, 0, 0x202) := by decide

/-! ### Display (2.5) -/

theorem test_cls :
    see { start 0x00E0 with disp := State.reset.disp.set 5 0x20 } (fun t => (Display.pixel t.disp 5 5, t.redraw)) =
      some (false, true) := by decide

theorem test_drw_wraps :
    see (with2 { (start 0xD011).writeBytes 0x300 [0xFF] with i := 0x300 } 0 60 1 0)
      (fun t => (t.disp[0], t.disp[1], t.getV 15, t.redraw)) = some (0xF00000000000000F, 0, 0, true) ∧
    see { (start 0xD012).writeBytes 0x300 [0x80, 0x80] with i := 0x300, v := State.reset.v.set 1 31 }
      (fun t => (t.disp[31], t.disp[0], t.disp[1])) = some (1, 1, 0) := by decide

theorem test_drw_collision :
    see { (start 0xD011).writeBytes 0x300 [0xC0] with i := 0x300, disp := State.reset.disp.set 0 6 }
      (fun t => (t.disp[0], t.getV 15)) = some (5, 1) ∧
    see ({ (start 0xDFF1).writeBytes 0x300 [0x80] with i := 0x300, disp := State.reset.disp.set 4 0x10 }.setV 15 4)
      (fun t => (t.disp[4], t.getV 15)) = some (0, 1) := by decide

/-! ### Keypad and timers (2.6) -/

theorem test_skp :
    see ((at' 0x200 0xE59E 0x80 0).setV 5 7) (·.pc) = some 0x204 ∧
    see ((at' 0x200 0xE59E 0x40 0).setV 5 7) (·.pc) = some 0x202 ∧
    see ((start 0xE59E).setV 5 0x10) faults = some (.keyIndex, 0x200, 0xE59E, 0x10, 0x200) := by decide

theorem test_sknp :
    see ((start 0xE5A1).setV 5 7) (·.pc) = some 0x204 ∧
    see ((at' 0x200 0xE5A1 0x80 0).setV 5 7) (·.pc) = some 0x202 ∧
    see ((start 0xE5A1).setV 5 0xFF) faults = some (.keyIndex, 0x200, 0xE5A1, 0xFF, 0x200) := by decide

theorem test_read_dt : see { start 0xF307 with dt := 0x3C } (fun t => (t.getV 3, t.dt)) = some (0x3C, 59) := by decide

theorem test_key_wait_waits :
    see ({ start 0xF20A with dt := 3, st := 1 }.setV 2 0x55)
      (fun t => (t.pc, t.getV 2, t.dt, t.st, t.sndx, t.waiting)) = some (0x200, 0x55, 2, 0, true, true) := by decide

/-- The second clause's draw is 0, the lowest pressed key. -/
theorem test_key_wait_completes :
    see (at' 0x200 0xFF0A 0x1000 0) (regs 15 0) = some (0x0C, 0, 0x202) ∧
    see { at' 0x200 0xF20A 0x0208 0 with waiting := true } (fun t => (t.getV 2, t.pc, t.waiting)) =
      some (3, 0x202, false) := by decide

theorem test_set_dt :
    see ((start 0xF015).setV 0 1) (·.dt) = some 0 ∧ see ((start 0xF015).setV 0 0xFF) (·.dt) = some 254 := by decide

theorem test_set_st :
    see ((start 0xF018).setV 0 1) (fun t => (t.st, t.sndx)) = some (0, true) ∧
    see { start 0xF018 with st := 5 } (fun t => (t.st, t.sndx)) = some (0, false) := by decide

/-! ### Reset and image load (2.7) -/

theorem test_image_load :
    (((State.reset.loadImage [0x60, 0x2A]).map (·.drive [⟨0, 0, 0⟩])).bind (see · (regs 0 1))) = some (0x2A, 0, 0x202) := by
  decide

theorem test_reset_after_a_fault :
    State.assertReset defaultFontVector { start 0 with faultCause := .decode, faultPc := 0x200, pc := 0x300, dt := 9 } =
      State.reset.drive [⟨0, 0, 0⟩] := by
  rw [State.assertReset, State.resetWith_default]; rfl

/-- R8, R135: a block with another FONT gets that FONT back at a reset, whatever became of its memory. -/
theorem test_reset_keeps_the_parameter_font :
    (fun t : State => (t.read 0, t.read 0x4F, t.read 0x50))
      (State.assertReset (Vector.replicate 80 0xAA) ((State.resetWith (Vector.replicate 80 0xAA)).writeBytes 0x4F [1, 2])) =
      (0xAA, 0xAA, 0) := by
  simp [State.read_assertReset]

/-! ## Witnesses: the hypotheses of each obligation can be met

Each is named after its obligation. Where the hypotheses have clauses, each clause has its case, at an end of its range. -/

theorem witness_DecodeReadsBackEncode : (Instr.drw 15 15 15).wellFormed = true ∧ (Instr.jp 0xFFF).wellFormed = true := by
  decide

theorem witness_OnlyShiftsIgnoreAField :
    decode 0x8FF6 = .ok (.shr 15) ∧ decode 0x80FE = .ok (.shl 0) ∧
    (decode 0x8FF7 = .ok (.subn 15 15) ∧ ∀ x, Instr.subn 15 15 ≠ .shr x ∧ Instr.subn 15 15 ≠ .shl x) := by decide

theorem witness_DecoderFollowsTheOpcodeTable :
    decode 0x00EE = .ok .ret ∧ decode 0xFF65 = .ok (.ldVxMem 15) ∧
    ∃ r ∈ opcodeRows, r.selects 0x1000 = true ∧ r.selects 0x1FFF = true := by decide

/-- The first and the last illegal word of each space of R74, and legal words beside them. -/
theorem witness_IllegalWordsAreThoseOfTheTable :
    (decode 0x0000 = .error .family0 ∧ decode 0x00DF = .error .family0 ∧ decode 0x00ED = .error .family0 ∧
      decode 0x0FFF = .error .family0) ∧
    (decode 0x5001 = .error .family5 ∧ decode 0x5FFF = .error .family5 ∧ decode 0x5FF0 = .ok (.seReg 15 15)) ∧
    (decode 0x8008 = .error .family8 ∧ decode 0x8FFD = .error .family8 ∧ decode 0x8FFF = .error .family8) ∧
    (decode 0x9001 = .error .family9 ∧ decode 0x9FFF = .error .family9 ∧ decode 0x9FF0 = .ok (.sneReg 15 15)) ∧
    (decode 0xE000 = .error .familyE ∧ decode 0xEF9F = .error .familyE ∧ decode 0xEFFF = .error .familyE) ∧
    (decode 0xF000 = .error .familyF ∧ decode 0xF066 = .error .familyF ∧ decode 0xFFFF = .error .familyF) := by decide

/-- A cycle that completes, at the last address a fetch reaches, and one that faults. -/
theorem witness_StepRunsTheDecodedInstruction :
    ((at' 0xFFE 0x6001 0 0).faultCause = .none ∧ (at' 0xFFE 0x6001 0 0).pc.toNat ≤ 0xFFE ∧
      decode ((at' 0xFFE 0x6001 0 0).read 0xFFE ++ (at' 0xFFE 0x6001 0 0).read 0xFFF : Word) = .ok (.ldByte 0 1) ∧
      ∃ t, exec (.ldByte 0 1) (prologue (at' 0xFFE 0x6001 0 0)) = .next t ∧ t.faultCause = .none) ∧
    ((start 0x00EE).faultCause = .none ∧ (start 0x00EE).pc.toNat ≤ 0xFFE ∧
      decode ((start 0x00EE).read 0x200 ++ (start 0x00EE).read 0x201 : Word) = .ok .ret ∧
      ∃ t, exec .ret (prologue (start 0x00EE)) = .next t ∧ t.faultCause ≠ .none) :=
  ⟨⟨rfl, by decide, by decide, _, rfl, rfl⟩, rfl, by decide, by decide, _, rfl, by decide⟩

theorem witness_HaltedBlockIgnoresStrobes : { State.reset with faultCause := .keyIndex }.faultCause ≠ .none := by decide

theorem witness_FetchAboveMemoryFaults :
    0xFFE < { State.reset with pc := 0xFFF }.pc.toNat ∧ { State.reset with pc := 0xFFF }.faultCause = .none ∧
    0xFFE < { State.reset with pc := 0xFFFF }.pc.toNat := by decide

theorem witness_IllegalWordTakesTheDecodeFault :
    State.reset.faultCause = .none ∧ State.reset.pc.toNat ≤ 0xFFE ∧
    decode (State.reset.read 0x200 ++ State.reset.read 0x201 : Word) = .error .family0 ∧
    (at' 0xFFE 0x5001 0 0).faultCause = .none ∧ (at' 0xFFE 0x5001 0 0).pc.toNat ≤ 0xFFE ∧
    decode ((at' 0xFFE 0x5001 0 0).read 0xFFE ++ (at' 0xFFE 0x5001 0 0).read 0xFFF : Word) = .error .family5 := by
  decide

/-- A running state at the ends of the invariant's bounds, a halted one and a waiting one, each with its next state. -/
theorem witness_EveryStepKeepsTheInvariant :
    (∃ t, State.Inv { start 0 with pc := 0x10FE, stack := State.reset.stack.set 15 0x1000 } ∧
      step { start 0 with pc := 0x10FE, stack := State.reset.stack.set 15 0x1000 } = .next t) ∧
    (∃ t, State.Inv { start 0 with faultCause := .decode, faultPc := 0x200 } ∧
      step { start 0 with faultCause := .decode, faultPc := 0x200 } = .next t) ∧
    (∃ t, State.Inv { start 0xF20A with waiting := true } ∧ step { start 0xF20A with waiting := true } = .next t) :=
  ⟨⟨_, ⟨by decide, by decide, by decide, by decide, by decide, by decide⟩, rfl⟩,
    ⟨_, ⟨by decide, by decide, by decide, by decide, by decide, by decide⟩, rfl⟩,
    ⟨_, ⟨by decide, by decide, by decide, by decide, by decide, by decide⟩, rfl⟩⟩

theorem witness_FaultsArePrecise :
    ∃ t, (start 0).faultCause = .none ∧ step (start 0) = .next t ∧ t.faultCause ≠ .none := ⟨_, rfl, rfl, by decide⟩

/-- A running state, and a halted state for each cause. -/
theorem witness_FaultRegistersDescribeTheFault :
    (∃ t, (start 0).FaultRegsDescribe ∧ step (start 0) = .next t) ∧
    State.FaultRegsDescribe { at' 0xFFE 0x8008 0 0 with faultCause := .decode, faultInsn := 0x8008 } ∧
    State.FaultRegsDescribe { start 0 with faultCause := .fetchOob, pc := 0xFFF, faultInfo := 0x1000 } ∧
    State.FaultRegsDescribe { start 0xF033 with faultCause := .memOob, i := 0xFFE, faultInsn := 0xF033, faultInfo := 0x1000 } ∧
    State.FaultRegsDescribe { start 0x2300 with faultCause := .stackOverflow, sp := 16, faultInsn := 0x2300, faultInfo := 16 } ∧
    State.FaultRegsDescribe { start 0x00EE with faultCause := .stackUnderflow, faultInsn := 0x00EE } ∧
    State.FaultRegsDescribe ({ start 0xE59E with faultCause := .keyIndex, faultInsn := 0xE59E, faultInfo := 16 }.setV 5 16) :=
  ⟨⟨_, ⟨nofun, trivial⟩, rfl⟩, ⟨by decide, rfl, .family8, by decide⟩, ⟨by decide, rfl, by decide, by decide⟩,
    ⟨by decide, by decide, .ldBVx 0, by decide, .inr (.inl ⟨0, rfl⟩)⟩, ⟨by decide, rfl, rfl, 0x300, by decide⟩,
    ⟨by decide, rfl, rfl, by decide⟩, ⟨by decide, 5, by decide, by decide, .inl (by decide)⟩⟩

/-- Each faulting instruction just inside and just outside its condition. -/
theorem witness_InstructionsFaultOnlyTheirOwnWay :
    State.reset.faultCause = .none ∧ (∃ t, exec .cls State.reset = .next t) ∧
    ¬ faultsOn { State.reset with sp := 15 } (.call 0) ∧ faultsOn { State.reset with sp := 16 } (.call 0) ∧
    ¬ faultsOn { State.reset with sp := 1 } .ret ∧ faultsOn State.reset .ret ∧
    ¬ faultsOn (State.reset.setV 0 15) (.skp 0) ∧ faultsOn (State.reset.setV 0 16) (.sknp 0) ∧
    ¬ faultsOn { State.reset with i := 0xFFF } (.drw 0 0 1) ∧ faultsOn { State.reset with i := 0xFFF } (.drw 0 0 2) ∧
    ¬ faultsOn { State.reset with i := 0xFFFF } (.drw 0 0 0) ∧
    ¬ faultsOn { State.reset with i := 0xFFD } (.ldBVx 0) ∧ faultsOn { State.reset with i := 0xFFE } (.ldBVx 0) ∧
    ¬ faultsOn { State.reset with i := 0xFF0 } (.ldMemVx 15) ∧ faultsOn { State.reset with i := 0xFF1 } (.ldVxMem 15) := by
  refine ⟨rfl, ⟨_, rfl⟩, ?_⟩
  unfold faultsOn
  decide

theorem witness_ExecuteFaultsWriteOnlyTheFaultRegisters :
    (faultOf (.drw 0 0 2) = .memOob ∧ faultsOn { State.reset with i := 0xFFF } (.drw 0 0 2)) ∧
    (faultOf (.ldBVx 0) = .memOob ∧ faultsOn { State.reset with i := 0xFFE } (.ldBVx 0)) ∧
    (faultOf (.ldMemVx 1) = .memOob ∧ faultsOn { State.reset with i := 0xFFF } (.ldMemVx 1)) ∧
    (faultOf (.ldVxMem 15) = .memOob ∧ faultsOn { State.reset with i := 0xFF1 } (.ldVxMem 15)) ∧
    ({ State.reset with sp := 16 } : State).sp = 16 ∧ State.reset.sp = 0 ∧ 15 < ((State.reset.setV 3 16).getV 3).toNat := by
  unfold faultsOn
  decide

/-- An FX15 with V[x] = 255 and with 0, and another instruction with DT = 255 and with 0. -/
theorem witness_DelayTimerTicksEveryCompletedCycle :
    (∃ t, nextInstr ((start 0xF015).setV 0 255) = some (.ldDtVx 0) ∧ step ((start 0xF015).setV 0 255) = .next t ∧
      t.faultCause = .none) ∧
    (∃ t, nextInstr (start 0xF015) = some (.ldDtVx 0) ∧ step (start 0xF015) = .next t ∧ t.faultCause = .none) ∧
    (∃ t, nextInstr { start 0x6000 with dt := 255 } = some (.ldByte 0 0) ∧
      step { start 0x6000 with dt := 255 } = .next t ∧ t.faultCause = .none) ∧
    (∃ t, nextInstr (start 0x6000) = some (.ldByte 0 0) ∧ (∀ x, Instr.ldByte 0 0 ≠ .ldDtVx x) ∧
      step (start 0x6000) = .next t ∧ t.faultCause = .none) :=
  ⟨⟨_, by decide, rfl, rfl⟩, ⟨_, by decide, rfl, rfl⟩, ⟨_, by decide, rfl, rfl⟩, ⟨_, by decide, by decide, rfl, rfl⟩⟩

/-- An FX18 with V[x] = 1 and with 0, and another instruction with ST = 1 and with 0. -/
theorem witness_SoundTimerTicksAndSignalsExpiry :
    (∃ t, nextInstr ((start 0xF018).setV 0 1) = some (.ldStVx 0) ∧ step ((start 0xF018).setV 0 1) = .next t ∧
      t.faultCause = .none) ∧
    (∃ t, nextInstr (start 0xF018) = some (.ldStVx 0) ∧ step (start 0xF018) = .next t ∧ t.faultCause = .none) ∧
    (∃ t, nextInstr { start 0x6000 with st := 1 } = some (.ldByte 0 0) ∧ step { start 0x6000 with st := 1 } = .next t ∧
      t.faultCause = .none) ∧
    (∃ t, nextInstr (start 0x6000) = some (.ldByte 0 0) ∧ (∀ x, Instr.ldByte 0 0 ≠ .ldStVx x) ∧
      step (start 0x6000) = .next t ∧ t.faultCause = .none) :=
  ⟨⟨_, by decide, rfl, rfl⟩, ⟨_, by decide, rfl, rfl⟩, ⟨_, by decide, rfl, rfl⟩, ⟨_, by decide, by decide, rfl, rfl⟩⟩

/-- A cycle that draws, one that does not, and one whose draw faults. -/
theorem witness_RedrawSaysWhetherTheCycleDrew :
    (start 0x00E0).faultCause = .none ∧ see (start 0x00E0) (·.redraw) = some true ∧
    see (start 0x6000) (·.redraw) = some false ∧
    see { start 0xD002 with i := 0xFFF } (fun t => (t.redraw, t.faultCause)) = some (false, .memOob) := by decide

/-- A cycle that waits, and one whose FX0A sees a key. -/
theorem witness_WaitingSaysWhetherTheCycleWaited :
    (start 0xF20A).faultCause = .none ∧ (start 0xF20A).keysIn = 0 ∧ nextInstr (start 0xF20A) = some (.ldVxK 2) ∧
    see (start 0xF20A) (·.waiting) = some true ∧ see (at' 0x200 0xF20A 0x8000 0) (·.waiting) = some false := by decide

theorem witness_KeysAreTheSnapshotOfTheCycle :
    (∃ t, (at' 0x200 0x6000 0x8001 0).faultCause = .none ∧ step (at' 0x200 0x6000 0x8001 0) = .next t) ∧
    ∃ t, exec .cls State.reset = .next t := ⟨⟨_, rfl, rfl⟩, _, rfl⟩

theorem witness_RegisterWriteSetsHold :
    (∃ t, exec (.addByte 0 1) State.reset = .next t) ∧ writesReg (.addByte 0 1) 14 = false ∧
    (∃ t, exec (.ldVxMem 14) State.reset = .next t) ∧ writesReg (.ldVxMem 14) 15 = false :=
  ⟨⟨_, rfl⟩, by decide, ⟨_, rfl⟩, by decide⟩

theorem witness_OnlyNamedInstructionsWriteDisplayIndexAndTimers :
    (∃ t, exec (.ldByte 0 1) State.reset = .next t) ∧ drawsDisplay (.ldByte 0 1) = false ∧
    (∀ nnn, Instr.ldByte 0 1 ≠ .ldI nnn) ∧ (∀ x, Instr.ldByte 0 1 ≠ .addIVx x) ∧ (∀ x, Instr.ldByte 0 1 ≠ .ldFVx x) ∧
    (∀ x, Instr.ldByte 0 1 ≠ .ldDtVx x) ∧ ∀ x, Instr.ldByte 0 1 ≠ .ldStVx x :=
  ⟨⟨_, rfl⟩, rfl, nofun, nofun, nofun, nofun, nofun⟩

theorem witness_OnlyCallAndReturnWriteTheStack :
    (∃ t, exec (.call 0x300) { State.reset with sp := 15 } = .next t ∧ (14 : Fin 16).val ≠ 15) ∧
    (∃ t, exec .ret { State.reset with sp := 16 } = .next t) ∧
    (∃ t, exec .cls State.reset = .next t) ∧ (∀ nnn, Instr.cls ≠ .call nnn) ∧ Instr.cls ≠ .ret :=
  ⟨⟨_, rfl, by decide⟩, ⟨_, rfl⟩, ⟨_, rfl⟩, nofun, nofun⟩

/-- The bytes just below and just above what is stored. -/
theorem witness_StoresReachOnlyTheirBytes :
    (∃ t, exec .cls State.reset = .next t) ∧
    (∃ t, exec (.ldBVx 0) { State.reset with i := 0x300 } = .next t ∧ 0x2FF < 0x300 ∧ 0x300 + 3 ≤ 0x303) ∧
    (∃ t, exec (.ldMemVx 15) { State.reset with i := 0x300 } = .next t ∧ 0x2FF < 0x300 ∧ 0x300 + 15 < 0x310) :=
  ⟨⟨_, rfl⟩, ⟨_, rfl, by decide, by decide⟩, ⟨_, rfl, by decide, by decide⟩⟩

theorem witness_ExecuteLeavesTheStatusRegistersAlone :
    (∃ t, exec .cls State.reset = .next t ∧ State.reset.faultCause = .none ∧ t.faultCause = .none) ∧
    ∃ t, exec .ret State.reset = .next t ∧ t.faultCause ≠ .none := ⟨⟨_, rfl, rfl, rfl⟩, _, rfl, by decide⟩

theorem witness_ReturnPopsIntoPc :
    ({ State.reset with sp := 1 } : State).sp ≠ 0 ∧ (0 : Fin 16).val + 1 = 1 ∧
    ({ State.reset with sp := 16 } : State).sp ≠ 0 ∧ (15 : Fin 16).val + 1 = 16 := by decide

theorem witness_CallPushesTheReturnAddress :
    State.reset.sp ≠ 16 ∧ ({ State.reset with sp := 15 } : State).sp ≠ 16 := by decide

theorem witness_ReturnUndoesCall :
    ∃ t, ({ State.reset with sp := 15 } : State).sp ≠ 16 ∧ exec (.call 0x300) { State.reset with sp := 15 } = .next t ∧
      ({ t with pc := 0x400 } : State).sp = t.sp ∧ ({ t with pc := 0x400 } : State).stack = t.stack :=
  ⟨_, by decide, rfl, rfl, rfl⟩

/-- The aliasing cases of the register operations: neither, the first, the second and both operands are VF. -/
theorem witness_register_aliasing :
    ((14 : Reg) ≠ VF ∧ (0 : Reg) ≠ VF ∧ (0 : Reg) ≠ 14) ∧ ((15 : Reg) = VF ∧ (14 : Reg) ≠ VF) := by decide

theorem witness_AddByteWithCarry :
    (0 : Reg) ≠ VF ∧ (1 : Reg) ≠ 0 ∧ (1 : Reg) ≠ VF ∧
    (255 < (0xFF : Byte).toNat + (1 : Byte).toNat) ∧ ¬ (255 < (0xFF : Byte).toNat + (0 : Byte).toNat) := by decide

theorem witness_AddRegistersWithCarry :
    see (with2 (start 0x8F14) 15 0x10 1 1) (regs 15 1) = some (0, 1, 0x202) ∧
    see (with2 (start 0x8124) 1 0xFF 2 0) (regs 1 15) = some (0xFF, 0, 0x202) := by decide

/-- x = y = 15, and x = y ≠ 15. -/
theorem witness_SubtractWithNotBorrow :
    see ((start 0x8FF5).setV 15 7) (regs 15 0) = some (0, 0, 0x202) ∧
    see ((start 0x8225).setV 2 7) (regs 2 15) = some (0, 0, 0x202) := by decide

/-- x = y = 15, and x = y ≠ 15. -/
theorem witness_ReverseSubtractWithNotBorrow :
    see ((start 0x8FF7).setV 15 7) (regs 15 0) = some (0, 0, 0x202) ∧
    see ((start 0x8227).setV 2 7) (regs 2 15) = some (0, 0, 0x202) := by decide

/-- x ≠ 15 with the lost bit 0, and x = 15. -/
theorem witness_ShiftsByOne :
    see ((start 0x8106).setV 1 0x80) (regs 1 15) = some (0x40, 0, 0x202) ∧
    see ((start 0x810E).setV 1 0x40) (regs 1 15) = some (0x80, 0, 0x202) ∧
    see ((start 0x8F0E).setV 15 0x7F) (regs 15 0) = some (0, 0, 0x202) := by decide

theorem witness_RandomByteIsMasked : (0 : Reg) ≠ 3 ∧ (0 : Nat) < 8 ∧ (7 : Nat) < 8 := by decide

/-- A low nibble that is not 0, the least and the greatest. -/
theorem witness_SkipsMovePc : (1 : Nibble) ≠ 0 ∧ (15 : Nibble) ≠ 0 := by decide

theorem witness_DecimalDigitsAreStored :
    ({ State.reset with i := 0xFFD } : State).i.toNat + 2 ≤ 0xFFF ∧ (0xFFC < 0xFFD ∨ 0xFFD + 2 < 0xFFC) := by decide

theorem witness_RegistersAreStored :
    ({ State.reset with i := 0xFF0 } : State).i.toNat + (15 : Reg).val ≤ 0xFFF ∧ (15 : Reg) ≤ 15 ∧ (0 : Reg) ≤ 15 ∧
    ({ State.reset with i := 0xFFF } : State).i.toNat + (0 : Reg).val ≤ 0xFFF := by decide

theorem witness_RegistersAreLoaded :
    ({ State.reset with i := 0xFF0 } : State).i.toNat + (15 : Reg).val ≤ 0xFFF ∧
    ({ State.reset with i := 0xFFF } : State).i.toNat + (0 : Reg).val ≤ 0xFFF := by decide

theorem witness_LoadRestoresStoredRegisters :
    ∃ t, ({ State.reset with i := 0xFF0 } : State).i.toNat + (15 : Reg).val ≤ 0xFFF ∧
      exec (.ldMemVx 15) { State.reset with i := 0xFF0 } = .next t ∧ (t.setV 3 9).mem = t.mem ∧ (t.setV 3 9).i = t.i :=
  ⟨_, by decide, rfl, rfl, rfl⟩

/-- A canonical memory with the lowest and the highest address listed, written in the other order; and a byte written
back to what its address reads as unlisted. -/
theorem witness_MemoryReadsBackAndIsCanonical :
    Memory.wf [(0, 1), (0xFFF, 2)] = true ∧ 0xFFF ≤ 0xFFF ∧
    Memory.write (Memory.write [] 0xFFF 2) 0 1 = [(0, 1), (0xFFF, 2)] ∧
    Memory.write [(0x200, 5)] 0x200 0 = [] ∧ Memory.wf [] = true := by decide

/-- A draw that ends at 0xFFF, and n = 0 with I far out of range. -/
theorem witness_DrawXorsTheSprite :
    ((15 : Nibble).toNat = 0 ∨ ({ State.reset with i := 0xFF1 } : State).i.toNat + ((15 : Nibble).toNat - 1) ≤ 0xFFF) ∧
    ((0 : Nibble).toNat = 0 ∨ ({ State.reset with i := 0xFFFF } : State).i.toNat + ((0 : Nibble).toNat - 1) ≤ 0xFFF) ∧
    (15 : Reg) = VF ∧ (0 : Reg) ≠ VF := by decide

theorem witness_DrawTwiceRestoresTheDisplay :
    ∃ t u, (0 : Reg) ≠ VF ∧ (14 : Reg) ≠ VF ∧ exec (.drw 0 14 5) State.reset = .next t ∧ exec (.drw 0 14 5) t = .next u :=
  ⟨_, _, by decide, by decide, rfl, rfl⟩

theorem witness_KeySkipsTestTheSnapshot :
    ((State.reset.setV 5 15).getV 5).toNat ≤ 15 ∧ (State.reset.getV 5).toNat ≤ 15 ∧
    see ((at' 0x200 0xE59E 0x8000 0).setV 5 15) (·.pc) = some 0x204 := by decide

/-- No key, the highest key alone, and two keys with draw 0. -/
theorem witness_KeyWaitCompletesOnAnyPressedKey :
    State.reset.keys = 0 ∧ ({ State.reset with keys := 0x8000 } : State).keys ≠ 0 ∧
    ({ start 0 with keys := 0x8001 } : State).keys ≠ 0 ∧ ({ start 0 with keys := 0x8001 } : State).keyPick = 0 := by decide

/-- The FX0A at 0x200 with two strobes that press nothing and a third that does. -/
theorem witness_KeyWaitHoldsUntilAKeyIsPressed :
    ∃ t, nextInstr ((start 0xF20A).drive [⟨0, 0, 0⟩, ⟨0, 1, 1⟩, ⟨0x80, 0, 0⟩]) = some (.ldVxK 2) ∧
      ((start 0xF20A).drive [⟨0, 0, 0⟩, ⟨0, 1, 1⟩, ⟨0x80, 0, 0⟩]).faultCause = .none ∧
      2 ≤ ((start 0xF20A).drive [⟨0, 0, 0⟩, ⟨0, 1, 1⟩, ⟨0x80, 0, 0⟩]).inputs.length ∧
      (∀ e ∈ ((start 0xF20A).drive [⟨0, 0, 0⟩, ⟨0, 1, 1⟩, ⟨0x80, 0, 0⟩]).inputs.take 2, e.keys = 0) ∧
      afterCycles 2 ((start 0xF20A).drive [⟨0, 0, 0⟩, ⟨0, 1, 1⟩, ⟨0x80, 0, 0⟩]) = some t :=
  ⟨_, by decide, rfl, by decide, by decide, rfl⟩

/-- One cycle that runs no FX15 and completes. -/
theorem witness_DelayTimerCountsDownByTheCycle :
    ∃ t, afterCycles 1 { start 0x6000 with dt := 1 } = some t ∧ t.faultCause = .none ∧
      ∀ j u x, j < 1 → afterCycles j { start 0x6000 with dt := 1 } = some u → nextInstr u ≠ some (.ldDtVx x) := by
  refine ⟨_, rfl, rfl, fun j u x hj hu => ?_⟩
  obtain rfl : j = 0 := by omega
  cases hu
  have : nextInstr { start 0x6000 with dt := 1 } = some (.ldByte 0 0) := by decide
  rw [this]
  exact nofun

theorem witness_OnlyRandomAndKeyWaitSeeTheDraws :
    nextInstr (start 0x6000) = some (.ldByte 0 0) ∧
    (∃ t, step ((start 0x6000).drive [⟨1, 2, 3⟩]) = .next t) ∧ ∃ u, step ((start 0x6000).drive [⟨1, 255, 0⟩]) = .next u :=
  ⟨by decide, ⟨_, rfl⟩, _, rfl⟩

/-- Images of 3585 and of 3584 bytes, and a machine before and after its first cycle. -/
theorem witness_ImageLoadIsVerbatimAndOnlyBeforeTheFirstCycle :
    3584 < (List.replicate 3585 (0 : Byte)).length ∧ (List.replicate 3584 (0 : Byte)).length ≤ 3584 ∧
    State.reset.started = false ∧ ({ State.reset with started := true } : State).started = true ∧
    ∃ t, State.reset.faultCause = .none ∧ step State.reset = .next t :=
  ⟨by rw [List.length_replicate]; decide, by rw [List.length_replicate], rfl, rfl, _, rfl, rfl⟩

/-- A state started from a FONT, and one that a reset of a halted block leaves. -/
theorem witness_EmptyMachineTakesTheDecodeFault :
    (State.resetWith (Vector.replicate 80 1) = State.resetWith (Vector.replicate 80 1)) ∧
    ∃ s : State, s.faultCause ≠ .none ∧ State.assertReset defaultFontVector s = State.reset.assertReset defaultFontVector :=
  ⟨rfl, { State.reset with faultCause := .decode }, by decide, rfl⟩

/-- Addresses at the ends of the clauses of `ResetState`. -/
theorem witness_ResetState : 0x50 ≤ 0x50 ∧ State.reset.read 0x4F = 0x80 ∧ State.reset.read 0x50 = 0 := by decide

end Sys2Proof.Tests
end

section
/-! PROOFS for 00_scope.md. A state and the same state with other coming inputs take the same cycle: each shared
operation, then execute, then the whole cycle, commutes with `State.drive`. Only CXKK and FX0A read the list (R9, R10). -/

namespace Sys2Proof.Machine

/-! ## The operations that do not read the coming inputs -/

variable (s : State) (es : List StrobeInput)

@[simp] theorem fetch_drive : fetch (s.drive es) = fetch s := rfl

@[simp] theorem State.i_drive : (s.drive es).i = s.i := rfl

@[simp] theorem State.faultCause_drive : (s.drive es).faultCause = s.faultCause := rfl

@[simp] theorem State.halted_drive : (s.drive es).halted = s.halted := rfl

@[simp] theorem endStrobe_drive : endStrobe (s.drive es) = (endStrobe s).drive es.tail := rfl

@[simp] theorem epilogue_drive (i : Instr) : epilogue i (s.drive es) = (epilogue i s).drive es := by
  rw [epilogue_eq, epilogue_eq]; rfl

/-- The prologue reads the key mask of the next input and nothing else of the list (R65). -/
theorem prologue_drive_cons_congr {e f : StrobeInput} (hk : e.keys = f.keys) (rest : List StrobeInput) :
    prologue (s.drive (f :: rest)) = (prologue (s.drive (e :: rest))).drive (f :: rest) :=
  congrArg (fun m => { s with redraw := false, sndx := false, keys := m, inputs := f :: rest }) hk.symm

/-! ## The operations with a continuation that does not read them either -/

theorem withDataRange_drive (i : Instr) (n : Nat) {k : State → State} (hk : ∀ u, k (u.drive es) = (k u).drive es) :
    withDataRange i n (s.drive es) k = (withDataRange i n s k).drive es := by
  rw [withDataRange, withDataRange, State.i_drive]
  cases outOfRange s.i.toNat n with
  | some a => rfl
  | none => exact hk s

theorem withKeyIndex_drive (i : Instr) (b : Byte) {k : State → State} (hk : ∀ u, k (u.drive es) = (k u).drive es) :
    withKeyIndex i b (s.drive es) k = (withKeyIndex i b s k).drive es := by
  unfold withKeyIndex
  split_ifs
  · rfl
  · exact hk s

theorem withPush_drive (i : Instr) (w : Word) {k : State → State} (hk : ∀ u, k (u.drive es) = (k u).drive es) :
    withPush i w (s.drive es) k = (withPush i w s k).drive es := by
  by_cases h : s.sp.val < 16
  · rw [withPush, withPush, dif_pos h, dif_pos (show (s.drive es).sp.val < 16 from h)]
    exact hk { s with stack := s.stack.set s.sp.val w h, sp := ⟨s.sp.val + 1, by omega⟩ }
  · rw [withPush, withPush, dif_neg h, dif_neg (show ¬ (s.drive es).sp.val < 16 from h)]
    rfl

theorem withPop_drive (i : Instr) {k : Word → State → State} (hk : ∀ w u, k w (u.drive es) = (k w u).drive es) :
    withPop i (s.drive es) k = (withPop i s k).drive es := by
  by_cases h : s.sp.val = 0
  · rw [withPop, withPop, dif_pos h, dif_pos (show (s.drive es).sp.val = 0 from h)]
    rfl
  · rw [withPop, withPop, dif_neg h, dif_neg (show ¬ (s.drive es).sp.val = 0 from h)]
    exact hk _ { s with sp := ⟨s.sp.val - 1, by omega⟩ }

variable {s} {t : State}

/-! ## Execute and the cycle -/

/-- Execute of an instruction other than CXKK and FX0A is the same whatever inputs are coming (R9, R10, R98). -/
theorem exec_drive {i : Instr} (hrnd : ∀ x kk, i ≠ .rnd x kk) (hkey : ∀ x, i ≠ .ldVxK x) (h : exec i s = .next t) :
    exec i (s.drive es) = .next (t.drive es) := by
  cases i with
  | rnd x kk => exact absurd rfl (hrnd x kk)
  | ldVxK x => exact absurd rfl (hkey x)
  | ret => cases h; exact congrArg _ (withPop_drive s es _ fun _ _ => rfl)
  | call nnn => cases h; exact congrArg _ (withPush_drive s es _ _ fun _ => rfl)
  | drw x y n => cases h; exact congrArg _ (withDataRange_drive s es _ _ fun _ => rfl)
  | ldBVx x => cases h; exact congrArg _ (withDataRange_drive s es _ _ fun _ => rfl)
  | ldMemVx x => cases h; exact congrArg _ (withDataRange_drive s es _ _ fun _ => rfl)
  | ldVxMem x => cases h; exact congrArg _ (withDataRange_drive s es _ _ fun _ => rfl)
  | skp x => cases h; exact congrArg _ (withKeyIndex_drive s es _ _ fun _ => rfl)
  | sknp x => cases h; exact congrArg _ (withKeyIndex_drive s es _ _ fun _ => rfl)
  | cls | jp | seByte | sneByte | seReg | ldByte | addByte | ldReg | orReg | andReg | xorReg | addReg | sub | shr | subn
  | shl | sneReg | ldI | jpV0 | ldVxDt | ldDtVx | ldStVx | addIVx | ldFVx => cases h; rfl

/-- A cycle that runs neither CXKK nor FX0A is the same whatever inputs are coming, and uses up the first of them. -/
theorem runCycle_drive (hrnd : ∀ x kk, nextInstr s ≠ some (.rnd x kk)) (hkey : ∀ x, nextInstr s ≠ some (.ldVxK x))
    (h : runCycle s = .next t) : runCycle (s.drive es) = .next (t.drive es.tail) := by
  unfold runCycle at h ⊢
  rw [fetch_drive]
  cases hf : fetch s with
  | error a => rw [hf] at h; cases h; rfl
  | ok w =>
    simp only [hf] at h ⊢
    cases hd : decode w with
    | error e => simp only [hd] at h ⊢; cases h; rfl
    | ok i =>
      simp only [hd] at h ⊢
      have hn : nextInstr s = some i := (nextInstr_eq_some_iff s i).mpr ⟨w, hf, hd⟩
      cases he : exec i s with
      | fault r => cases r
      | refused r => rw [he] at h; cases h
      | next u =>
        rw [exec_drive es (fun x kk e => hrnd x kk (e ▸ hn)) (fun x e => hkey x (e ▸ hn)) he]
        rw [he] at h
        cases h
        by_cases hu : u.halted = true <;> simp [retire, hu]

/-- Settles O57: both steps leave a halted block alone, and the cycle of a running one, which starts from one prologue,
commutes with the change of the coming inputs. -/
theorem onlyRandomAndKeyWaitSeeTheDraws : Obligations.OnlyRandomAndKeyWaitSeeTheDraws := by
  intro s t u e f rest hk hrnd hkey ht hu
  by_cases hr : s.faultCause = .none
  · rw [step_running ((s.faultCause_drive _).trans hr)] at ht hu
    rw [prologue_drive_cons_congr s hk, runCycle_drive (s := prologue (s.drive (e :: rest))) _ hrnd hkey ht] at hu
    cases hu
    rfl
  · rw [step_halted ((s.faultCause_drive _).trans_ne hr)] at ht hu
    cases ht
    cases hu
    rfl

end Sys2Proof.Machine
end

section
/-! PROOFS for 10_state.md. First that a decoded word is read back by the encoder; then one inversion lemma for execute,
`exec_effect`, from which every frame follows; then one for a cycle, from which the invariant and the registers that
report on a cycle follow. -/

/-! ## The word of a decoded instruction -/

namespace Sys2Proof

theorem wordA_of_field {w : Word} {op : Nibble} (h : opField w = op) : wordA op (nnnField w) = w :=
  h ▸ (word_eq_of_nnn w).symm

theorem wordRK_of_fields {w : Word} {op : Nibble} (h : opField w = op) : wordRK op (xField w) (kkField w) = w :=
  h ▸ (word_eq_of_x_kk w).symm

theorem wordRRN_of_fields {w : Word} {op n : Nibble} (h : opField w = op) (hn : nField w = n) :
    wordRRN op (xField w) (yField w) n = w :=
  h ▸ hn ▸ (word_eq_of_nibbles w).symm

variable {w : Word} {x y : Reg} {n : Nibble} {kk : Byte} {i : Instr}

theorem encode_of_decode0 (h : decode0 w = .ok i) : encode i = w := by
  unfold decode0 at h
  split_ifs at h with h1 h2 <;> cases h
  · exact h1.symm
  · exact h2.symm

theorem encode_of_decode8 (hs : ∀ x, i ≠ .shr x ∧ i ≠ .shl x) (h : decode8 x y n = .ok i) :
    encode i = wordRRN 0x8 x y n := by
  unfold decode8 at h
  split_ifs at h <;> cases h <;> subst n
  -- the rows of the two shifts, which `hs` leaves out
  on_goal 7 => exact absurd rfl (hs x).1
  on_goal 8 => exact absurd rfl (hs x).2
  all_goals rfl

theorem encode_of_decodeE (h : decodeE x kk = .ok i) : encode i = wordRK 0xE x kk := by
  unfold decodeE at h
  split_ifs at h <;> cases h <;> subst kk <;> rfl

theorem encode_of_decodeF (h : decodeF x kk = .ok i) : encode i = wordRK 0xF x kk := by
  unfold decodeF at h
  split_ifs at h <;> cases h <;> subst kk <;> rfl

/-- A legal word is the encoding of what it decodes to, unless that is a shift, whose y field is dropped (R76). -/
theorem encode_of_decode (hs : ∀ x, i ≠ .shr x ∧ i ≠ .shl x) (h : decode w = .ok i) : encode i = w := by
  unfold decode at h
  obtain ⟨h0, h⟩ | ⟨h0, h⟩ := ite_eq_iff.mp h
  · exact encode_of_decode0 h
  obtain ⟨h1, h⟩ | ⟨h1, h⟩ := ite_eq_iff.mp h
  · cases h; exact wordA_of_field h1
  obtain ⟨h2, h⟩ | ⟨h2, h⟩ := ite_eq_iff.mp h
  · cases h; exact wordA_of_field h2
  obtain ⟨h3, h⟩ | ⟨h3, h⟩ := ite_eq_iff.mp h
  · cases h; exact wordRK_of_fields h3
  obtain ⟨h4, h⟩ | ⟨h4, h⟩ := ite_eq_iff.mp h
  · cases h; exact wordRK_of_fields h4
  obtain ⟨h5, h⟩ | ⟨h5, h⟩ := ite_eq_iff.mp h
  · obtain ⟨hn, h⟩ | ⟨-, h⟩ := ite_eq_iff.mp h
    · cases h; exact wordRRN_of_fields h5 hn
    · cases h
  obtain ⟨h6, h⟩ | ⟨h6, h⟩ := ite_eq_iff.mp h
  · cases h; exact wordRK_of_fields h6
  obtain ⟨h7, h⟩ | ⟨h7, h⟩ := ite_eq_iff.mp h
  · cases h; exact wordRK_of_fields h7
  obtain ⟨h8, h⟩ | ⟨h8, h⟩ := ite_eq_iff.mp h
  · exact (encode_of_decode8 hs h).trans (wordRRN_of_fields h8 rfl)
  obtain ⟨h9, h⟩ | ⟨h9, h⟩ := ite_eq_iff.mp h
  · obtain ⟨hn, h⟩ | ⟨-, h⟩ := ite_eq_iff.mp h
    · cases h; exact wordRRN_of_fields h9 hn
    · cases h
  obtain ⟨hA, h⟩ | ⟨hA, h⟩ := ite_eq_iff.mp h
  · cases h; exact wordA_of_field hA
  obtain ⟨hB, h⟩ | ⟨hB, h⟩ := ite_eq_iff.mp h
  · cases h; exact wordA_of_field hB
  obtain ⟨hC, h⟩ | ⟨hC, h⟩ := ite_eq_iff.mp h
  · cases h; exact wordRK_of_fields hC
  obtain ⟨hD, h⟩ | ⟨hD, h⟩ := ite_eq_iff.mp h
  · cases h; exact wordRRN_of_fields hD rfl
  obtain ⟨hE, h⟩ | ⟨hE, h⟩ := ite_eq_iff.mp h
  · exact (encode_of_decodeE h).trans (wordRK_of_fields hE)
  exact (encode_of_decodeF h).trans (wordRK_of_fields (by bv_omega))

end Sys2Proof

namespace Sys2Proof.Machine

/-! ## What execute can do -/

/-- The faults of execute with what FAULT_INFO then holds (R119 to R122). -/
inductive FaultInfo (s : State) : Instr → Word → Prop
  /-- MEM_OOB: the lowest out-of-range address (R119). -/
  | memOob {i : Instr} (hi : (∃ x y n, i = .drw x y n) ∨ (∃ x, i = .ldBVx x) ∨ (∃ x, i = .ldMemVx x) ∨
      ∃ x, i = .ldVxMem x) : FaultInfo s i (BitVec.ofNat 16 (max s.i.toNat 0x1000))
  /-- STACK_OVERFLOW: SP (R120). -/
  | stackOverflow (nnn : Addr) (h : s.sp = 16) : FaultInfo s (.call nnn) 16
  /-- STACK_UNDERFLOW: SP (R121). -/
  | stackUnderflow (h : s.sp = 0) : FaultInfo s .ret 0
  /-- KEY_INDEX: the index (R122). -/
  | keyIndex {i : Instr} (x : Reg) (hi : i = .skp x ∨ i = .sknp x) (h : 15 < (s.getV x).toNat) :
      FaultInfo s i (zext16 (s.getV x))

/-- What execute can answer, by what it writes. `exec_effect` ties it to `exec`; the frames and bounds of execute follow
from it, each by a case for the effects that write the field in question. -/
inductive Effect (s : State) : Instr → State → Prop
  /-- A fault, which writes the fault registers and WAITING (R124). -/
  | fault {i : Instr} {info : Word} (hf : FaultInfo s i info) : Effect s i (raiseFault (faultOf i) (encode i) info s)
  /-- FX0A with no key pressed writes nothing (R113). -/
  | wait (x : Reg) : Effect s (.ldVxK x) s
  /-- General registers of the write set of R20. -/
  | regs {i : Instr} {v : Vector Byte 16} (hv : ∀ r, writesReg i r = false → State.getV { s with v := v } r = s.getV r) :
      Effect s i { s with v := v }.advance
  /-- A jump or a skip: PC alone, at most 0x10FE from a fetched PC (R26). -/
  | jump {i : Instr} {w : Word} (hw : s.pc.toNat ≤ 0xFFE → w.toNat ≤ 0x10FE) : Effect s i (s.jump w)
  /-- 00EE: SP, and PC from the stack (R79). -/
  | pop (sp : Fin 17) (j : Fin 16) : Effect s .ret { s with sp := sp, pc := s.stack[j] }
  /-- 2NNN: SP and the entry at SP (R81). -/
  | push (nnn : Addr) (sp : Fin 17) {stack : Vector Word 16}
      (hst : ∀ j : Fin 16, stack[j] = if j.val = s.sp.val then s.pc + 2 else s.stack[j]) :
      Effect s (.call nnn) { s with stack := stack, sp := sp, pc := zext16 nnn }
  /-- ANNN, FX1E and FX29: I (R22). -/
  | index {i : Instr} (hi : (∃ nnn, i = .ldI nnn) ∨ (∃ x, i = .addIVx x) ∨ ∃ x, i = .ldFVx x) (w : Word) :
      Effect s i (s.setI w).advance
  /-- FX15: DT (R114). -/
  | delay (x : Reg) : Effect s (.ldDtVx x) { s with dt := s.getV x }.advance
  /-- FX18: ST (R115). -/
  | sound (x : Reg) : Effect s (.ldStVx x) { s with st := s.getV x }.advance
  /-- 00E0 and DXYN: the display, REDRAW, and the registers of the write set (R32, R33). -/
  | draw {i : Instr} {v : Vector Byte 16} (hi : drawsDisplay i = true) (d : Display)
      (hv : ∀ r, writesReg i r = false → State.getV { s with v := v } r = s.getV r) :
      Effect s i { s with v := v, disp := d, redraw := true }.advance
  /-- FX33 and FX55: bytes of memory in range from I on (R49, R53). -/
  | store {i : Instr} {bs : List Byte} (hb : s.i.toNat + bs.length ≤ 0x1000) :
      Effect s i (s.writeBytes s.i.toNat bs).advance

variable {i : Instr} {s t : State}

theorem State.getV_setV_of_ne {x r : Reg} {b : Byte} (h : r ≠ x) : (s.setV x b).getV r = s.getV r := by
  rw [State.getV_setV, if_neg h]

/-- An operation with a flag writes its result and VF, in either order, and no other register. -/
theorem State.getV_setV_setV_of_ne {x y r : Reg} {a b : Byte} (hx : r ≠ x) (hy : r ≠ y) :
    ((s.setV x a).setV y b).getV r = s.getV r :=
  (State.getV_setV_of_ne hy).trans (State.getV_setV_of_ne hx)

theorem State.getV_loadRegsUpTo_of_lt {x r : Reg} (h : ¬ r.val ≤ x.val) : (s.loadRegsUpTo x).getV r = s.getV r := by
  rw [State.getV_loadRegsUpTo, if_neg h]

theorem zext16_toNat {n : Nat} (hn : n ≤ 16) (b : BitVec n) : (zext16 b).toNat = b.toNat :=
  BitVec.toNat_setWidth_of_le hn

/-- A skip lands at PC + 2 or PC + 4, within the bound of R26. -/
theorem skip_target_le (c : Bool) (h : s.pc.toNat ≤ 0xFFE) : (if c then s.pc + 4 else s.pc + 2).toNat ≤ 0x10FE := by
  cases c <;> simp only [Bool.false_eq_true, if_true, if_false] <;> bv_omega

/-- Execute of every instruction has one of the effects. -/
theorem exec_effect (h : exec i s = .next t) : Effect s i t := by
  cases i with
  | ldByte | ldReg | orReg | andReg | xorReg | rnd | ldVxDt =>
    cases h; exact .regs fun r hr => State.getV_setV_of_ne (of_decide_eq_false hr)
  | addByte | addReg =>
    cases h
    refine .regs fun r hr => ?_
    obtain ⟨hx, hVF⟩ := not_or.mp (of_decide_eq_false hr)
    exact State.getV_setV_setV_of_ne hx hVF
  | sub | subn | shr | shl =>
    cases h
    refine .regs fun r hr => ?_
    obtain ⟨hx, hVF⟩ := not_or.mp (of_decide_eq_false hr)
    exact State.getV_setV_setV_of_ne hVF hx
  | seByte | sneByte | seReg | sneReg => cases h; exact .jump (skip_target_le _)
  | skp x =>
    obtain ⟨-, he⟩ | ⟨hk, he⟩ := exec_skp_cases s x <;> cases he.symm.trans h
    · exact .jump (skip_target_le _)
    · exact .fault (.keyIndex x (.inl rfl) hk)
  | sknp x =>
    obtain ⟨-, he⟩ | ⟨hk, he⟩ := exec_sknp_cases s x <;> cases he.symm.trans h
    · exact .jump (skip_target_le _)
    · exact .fault (.keyIndex x (.inr rfl) hk)
  | jp nnn => cases h; exact .jump fun _ => by rw [zext16_toNat (by decide)]; omega
  | jpV0 nnn =>
    cases h
    refine .jump fun _ => ?_
    rw [BitVec.toNat_add, zext16_toNat (by decide), zext16_toNat (by decide)]
    omega
  | ret =>
    obtain ⟨u, j, hu, -, -, he⟩ | ⟨hsp, he⟩ := exec_ret_cases s <;> cases he.symm.trans h
    · rw [hu]; exact .pop u.sp j
    · exact .fault (.stackUnderflow hsp)
  | call nnn =>
    obtain ⟨u, -, hu, -, hst, he⟩ | ⟨hsp, he⟩ := exec_call_cases s nnn <;> cases he.symm.trans h
    · rw [hu]; exact .push nnn u.sp hst
    · exact .fault (.stackOverflow nnn hsp)
  | ldI nnn => cases h; exact .index (.inl ⟨nnn, rfl⟩) _
  | addIVx x => cases h; exact .index (.inr (.inl ⟨x, rfl⟩)) _
  | ldFVx x => cases h; exact .index (.inr (.inr ⟨x, rfl⟩)) _
  | ldDtVx x => cases h; exact .delay x
  | ldStVx x => cases h; exact .sound x
  | ldVxK x =>
    obtain ⟨-, he⟩ | ⟨-, k, -, -, -, he⟩ := exec_ldVxK_cases s x <;> cases he.symm.trans h
    · exact .wait x
    · exact .regs fun r hr => State.getV_setV_of_ne (of_decide_eq_false hr)
  | cls => cases h; exact .draw rfl _ fun _ _ => rfl
  | drw x y n =>
    obtain ⟨-, he⟩ | ⟨-, -, he⟩ := exec_drw_cases s x y n <;> cases he.symm.trans h
    · exact .draw rfl _ fun r hr => State.getV_setV_of_ne (s := s) (of_decide_eq_false hr)
    · exact .fault (.memOob (.inl ⟨x, y, n, rfl⟩))
  | ldBVx x =>
    obtain ⟨hb, he⟩ | ⟨-, he⟩ := exec_ldBVx_cases s x <;> cases he.symm.trans h
    · exact .store hb
    · exact .fault (.memOob (.inr (.inl ⟨x, rfl⟩)))
  | ldMemVx x =>
    obtain ⟨hb, he⟩ | ⟨-, he⟩ := exec_ldMemVx_cases s x <;> cases he.symm.trans h
    · exact .store ((s.regsUpTo_length x).symm ▸ hb)
    · exact .fault (.memOob (.inr (.inr (.inl ⟨x, rfl⟩))))
  | ldVxMem x =>
    obtain ⟨-, he⟩ | ⟨-, he⟩ := exec_ldVxMem_cases s x <;> cases he.symm.trans h
    · exact .regs fun r hr => State.getV_loadRegsUpTo_of_lt (of_decide_eq_false hr)
    · exact .fault (.memOob (.inr (.inr (.inr ⟨x, rfl⟩))))

/-- Only an instruction with a cause of its own can fault (R123). -/
theorem FaultInfo.faultOf_ne {info : Word} (h : FaultInfo s i info) : faultOf i ≠ .none := by
  cases h with
  | memOob hi => obtain ⟨x, y, n, rfl⟩ | ⟨x, rfl⟩ | ⟨x, rfl⟩ | ⟨x, rfl⟩ := hi <;> nofun
  | stackOverflow nnn => nofun
  | stackUnderflow => nofun
  | keyIndex x hi => obtain rfl | rfl := hi <;> nofun

/-- What execute latches in FAULT_INFO when it takes a fault. -/
theorem exec_faultInfo (h : exec i s = .next t) (hs : s.faultCause = .none) (ht : t.faultCause ≠ .none) :
    FaultInfo s i t.faultInfo := by
  cases exec_effect h with
  | fault hf => exact hf
  | _ => exact absurd hs ht

/-! ## What each instruction leaves alone -/

/-- Settles O22: the general registers are written by the register and draw effects alone, within R20's write set. -/
theorem registerWriteSetsHold : Obligations.RegisterWriteSetsHold := by
  intro i s t r h hr
  cases exec_effect h with
  | regs hv => exact hv r hr
  | draw _ _ hv => exact hv r hr
  | _ => rfl

/-- Only the instructions that draw write the display and REDRAW (R32, R33). -/
theorem exec_display (h : exec i s = .next t) (hd : drawsDisplay i = false) : t.disp = s.disp ∧ t.redraw = s.redraw := by
  cases exec_effect h with
  | draw hi => exact absurd (hd.symm.trans hi) Bool.false_ne_true
  | _ => exact ⟨rfl, rfl⟩

/-- Only ANNN, FX1E and FX29 write I (R22). -/
theorem exec_index (h : exec i s = .next t) (h1 : ∀ nnn, i ≠ .ldI nnn) (h2 : ∀ x, i ≠ .addIVx x)
    (h3 : ∀ x, i ≠ .ldFVx x) : t.i = s.i := by
  cases exec_effect h with
  | index hi =>
    obtain ⟨nnn, e⟩ | ⟨x, e⟩ | ⟨x, e⟩ := hi
    · exact absurd e (h1 nnn)
    · exact absurd e (h2 x)
    · exact absurd e (h3 x)
  | _ => rfl

/-- Only FX15 writes DT in execute (R35). -/
theorem exec_delay (h : exec i s = .next t) (hi : ∀ x, i ≠ .ldDtVx x) : t.dt = s.dt := by
  cases exec_effect h with
  | delay x => exact absurd rfl (hi x)
  | _ => rfl

/-- Only FX18 writes ST in execute (R36). -/
theorem exec_sound (h : exec i s = .next t) (hi : ∀ x, i ≠ .ldStVx x) : t.st = s.st := by
  cases exec_effect h with
  | sound x => exact absurd rfl (hi x)
  | _ => rfl

/-- Settles O23, by the frame of each of these fields. -/
theorem onlyNamedInstructionsWriteDisplayIndexAndTimers :
    Obligations.OnlyNamedInstructionsWriteDisplayIndexAndTimers := fun _ _ _ h =>
  ⟨exec_display h, exec_index h, exec_delay h, exec_sound h⟩

/-- Only 2NNN writes the stack array (R31). -/
theorem exec_stack (h : exec i s = .next t) (hi : ∀ nnn, i ≠ .call nnn) : t.stack = s.stack := by
  cases exec_effect h with
  | push nnn => exact absurd rfl (hi nnn)
  | _ => rfl

/-- Only 2NNN and 00EE write SP (R31). -/
theorem exec_sp (h : exec i s = .next t) (hcall : ∀ nnn, i ≠ .call nnn) (hret : i ≠ .ret) : t.sp = s.sp := by
  cases exec_effect h with
  | push nnn => exact absurd rfl (hcall nnn)
  | pop => exact absurd rfl hret
  | _ => rfl

/-- A stack entry after execute is what it was, but the entry at SP may be the return address (R31, R81). -/
theorem exec_stack_entry (h : exec i s = .next t) (j : Fin 16) :
    t.stack[j] = s.stack[j] ∨ j.val = s.sp.val ∧ t.stack[j] = s.pc + 2 := by
  cases exec_effect h with
  | push nnn sp hst =>
    by_cases hj : j.val = s.sp.val
    · exact .inr ⟨hj, (hst j).trans (if_pos hj)⟩
    · exact .inl ((hst j).trans (if_neg hj))
  | _ => exact .inl rfl

/-- Settles O24, by the frame of SP, of the array and of each of its entries. -/
theorem onlyCallAndReturnWriteTheStack : Obligations.OnlyCallAndReturnWriteTheStack := fun _ _ _ h =>
  ⟨exec_stack h, exec_sp h, fun j hj => (exec_stack_entry h j).resolve_right fun hpush => hj hpush.1⟩

/-- No instruction writes SNDX or what the host drives (R37; entries 2 and 3). -/
theorem exec_sndx_and_host (h : exec i s = .next t) :
    t.sndx = s.sndx ∧ t.started = s.started ∧ t.inputs = s.inputs ∧ t.draws = s.draws := by
  cases exec_effect h <;> exact ⟨rfl, rfl, rfl, rfl⟩

/-- Only a fault writes WAITING and the fault registers in execute (R44). -/
theorem exec_status (h : exec i s = .next t) (ht : t.faultCause = .none) :
    t.waiting = s.waiting ∧ t.faultPc = s.faultPc ∧ t.faultInsn = s.faultInsn ∧ t.faultInfo = s.faultInfo := by
  cases exec_effect h with
  | fault hf => exact absurd ht hf.faultOf_ne
  | _ => exact ⟨rfl, rfl, rfl, rfl⟩

/-- Settles O26, by the frames of these two groups of fields. -/
theorem executeLeavesTheStatusRegistersAlone : Obligations.ExecuteLeavesTheStatusRegistersAlone := fun _ _ _ h =>
  ⟨exec_sndx_and_host h, fun _ => exec_status h⟩

/-- No instruction writes KEYS (R34). -/
theorem exec_keys (h : exec i s = .next t) : t.keys = s.keys := by
  cases exec_effect h <;> rfl

/-- An instruction that takes no fault sets REDRAW if it draws, and else leaves it (R33). -/
theorem exec_redraw (h : exec i s = .next t) (ht : t.faultCause = .none) :
    t.redraw = (drawsDisplay i || s.redraw) := by
  cases hd : drawsDisplay i with
  | false => exact (exec_display h hd).2
  | true =>
    cases i with
    | cls => cases h; rfl
    | drw x y n =>
      obtain ⟨-, he⟩ | ⟨-, -, he⟩ := exec_drw_cases s x y n <;> cases he.symm.trans h
      · rfl
      · nomatch ht
    | _ => nomatch hd

/-! ## What a cycle can do -/

theorem fetch_eq_ok {w : Word} (h : fetch s = .ok w) : s.pc.toNat ≤ 0xFFE ∧ w = s.wordAtPc := by
  rcases Nat.lt_or_ge 0xFFE s.pc.toNat with hpc | hpc
  · rw [fetch_of_gt hpc] at h; cases h
  · rw [fetch_of_le hpc] at h; cases h; exact ⟨hpc, rfl⟩

theorem fetch_eq_error {a : Nat} (h : fetch s = .error a) : 0xFFE < s.pc.toNat ∧ a = max s.pc.toNat 0x1000 := by
  rcases Nat.lt_or_ge 0xFFE s.pc.toNat with hpc | hpc
  · rw [fetch_of_gt hpc] at h; cases h; exact ⟨hpc, rfl⟩
  · rw [fetch_of_le hpc] at h; cases h

/-- A cycle takes a fault, in a stage before execute or in an instruction that can fault, or completes the instruction it
fetched. -/
theorem step_faults_or_completes (hr : s.faultCause = .none) (h : step s = .next t) :
    (∃ c w info, c ≠ .none ∧ (∀ i, nextInstr s = some i → faultOf i ≠ .none) ∧
      t = endStrobe (raiseFault c w info (prologue s))) ∨
    (∃ i u, s.pc.toNat ≤ 0xFFE ∧ nextInstr s = some i ∧ exec i (prologue s) = .next u ∧ u.faultCause = .none ∧
      t = endStrobe (epilogue i u)) := by
  rcases step_cases hr h with ⟨a, hf, rfl⟩ | ⟨w, e, hf, hd, rfl⟩ | ⟨w, i, info, hf, hd, hne, -, rfl⟩ |
    ⟨w, i, u, hf, hd, he, hu, rfl⟩
  · exact .inl ⟨.fetchOob, _, _, nofun, fun i hi => by simp [nextInstr, hf] at hi, rfl⟩
  · exact .inl ⟨.decode, _, _, nofun, fun i hi => by simp [nextInstr, hf, hd] at hi, rfl⟩
  · have hn : nextInstr s = some i := (nextInstr_eq_some_iff s i).mpr ⟨w, hf, hd⟩
    exact .inl ⟨_, _, _, hne, fun j hj => Option.some.inj (hn.symm.trans hj) ▸ hne, rfl⟩
  · exact .inr ⟨i, u, (fetch_eq_ok hf).1, (nextInstr_eq_some_iff s i).mpr ⟨w, hf, hd⟩, he, hu, rfl⟩

section
variable (i s)

@[simp] theorem epilogue_redraw : (epilogue i s).redraw = s.redraw := by rw [epilogue_eq]
@[simp] theorem epilogue_keys : (epilogue i s).keys = s.keys := by rw [epilogue_eq]
@[simp] theorem epilogue_faultCause : (epilogue i s).faultCause = s.faultCause := by rw [epilogue_eq]
@[simp] theorem epilogue_waiting : (epilogue i s).waiting = (isKeyWait i && decide (s.keys = 0)) := by rw [epilogue_eq]

end

/-! ## The invariant -/

/-- Settles O12: each clause by the values of the reset state. -/
theorem invariantHoldsAtReset : Obligations.InvariantHoldsAtReset where
  mem_wf := Memory.wf_nil
  pc_le := by decide
  stack_le := by decide
  running := fun _ => ⟨rfl, rfl, rfl⟩
  stopped := fun h => absurd rfl h
  waits := nofun

/-- Execute keeps memory canonical: a store's bytes are in range (R28, R49). -/
theorem exec_mem_wf (h : exec i s = .next t) (hm : s.mem.wf = true) : t.mem.wf = true := by
  cases exec_effect h with
  | store hb => exact Memory.wf_writeBytes hm hb
  | _ => exact hm

/-- From a PC a fetch reaches, the 16-bit sum PC + 2 is the exact one (entry 7). -/
theorem toNat_pc_add_two (hpc : s.pc.toNat ≤ 0xFFE) : (s.pc + 2).toNat = s.pc.toNat + 2 := by bv_omega

/-- Execute at a fetched PC leaves PC at or below 0x10FE, which BNNN reaches (R26). -/
theorem exec_pc_le (h : exec i s = .next t) (hpc : s.pc.toNat ≤ 0xFFE) (hst : ∀ j : Fin 16, s.stack[j].toNat ≤ 0x1000) :
    t.pc.toNat ≤ 0x10FE := by
  have hadv : (s.pc + 2).toNat ≤ 0x10FE := by rw [toNat_pc_add_two hpc]; omega
  cases exec_effect h with
  | fault | wait => exact hpc.trans (by decide)
  | regs | index | delay | sound | draw | store => exact hadv
  | jump hw => exact hw hpc
  | pop sp j => exact (hst j).trans (by decide)
  | push nnn => show (zext16 nnn).toNat ≤ 0x10FE; rw [zext16_toNat (by decide)]; omega

/-- Execute at a fetched PC keeps every stack entry at or below 0x1000 (R26). -/
theorem exec_stack_le (h : exec i s = .next t) (hpc : s.pc.toNat ≤ 0xFFE)
    (hst : ∀ j : Fin 16, s.stack[j].toNat ≤ 0x1000) (j : Fin 16) : t.stack[j].toNat ≤ 0x1000 := by
  obtain e | ⟨-, e⟩ := exec_stack_entry h j <;> rw [e]
  · exact hst j
  · rw [toNat_pc_add_two hpc]; omega

/-- A faulting cycle keeps the invariant: of its clauses only those on the fault registers and WAITING are touched. -/
theorem State.Inv.faulted (hs : s.Inv) {c : FaultCause} (w info : Word) (hc : c ≠ .none) :
    (endStrobe (raiseFault c w info (prologue s))).Inv where
  mem_wf := hs.mem_wf
  pc_le := hs.pc_le
  stack_le := hs.stack_le
  running := fun h => absurd h hc
  stopped := fun _ => ⟨rfl, rfl, rfl, rfl⟩
  waits := nofun

/-- A completed cycle keeps the invariant: execute's bounds hold at the fetched PC, and a cycle that waits ran FX0A, which
does not draw. -/
theorem State.Inv.completed (hs : s.Inv) (hr : s.faultCause = .none) (hpc : s.pc.toNat ≤ 0xFFE)
    (h : exec i (prologue s) = .next t) (ht : t.faultCause = .none) : (endStrobe (epilogue i t)).Inv := by
  have hmem := exec_mem_wf h hs.mem_wf
  have hle := exec_pc_le h hpc hs.stack_le
  have hstack := exec_stack_le h hpc hs.stack_le
  obtain ⟨-, hfp, hfi, hff⟩ := exec_status h ht
  obtain ⟨h1, h2, h3⟩ := hs.running hr
  rw [epilogue_eq]
  refine ⟨hmem, hle, hstack, fun _ => ⟨hfp.trans h1, hfi.trans h2, hff.trans h3⟩, fun hne => absurd ht hne, fun hw => ?_⟩
  obtain ⟨hi, hk⟩ := Bool.and_eq_true_iff.mp hw
  obtain ⟨x, rfl⟩ := (isKeyWait_iff i).mp hi
  exact ⟨of_decide_eq_true hk, exec_redraw h ht⟩

/-- Settles O11: a halted block stays as it is, and a cycle faults or completes. -/
theorem everyStepKeepsTheInvariant : Obligations.EveryStepKeepsTheInvariant := by
  intro s t hs h
  by_cases hr : s.faultCause = .none
  · obtain ⟨c, w, info, hc, -, rfl⟩ | ⟨i, u, hpc, -, he, hu, rfl⟩ := step_faults_or_completes hr h
    · exact hs.faulted w info hc
    · exact hs.completed hr hpc he hu
  · cases (step_halted hr).symm.trans h
    exact hs

/-! ## The registers that report on a cycle -/

/-- Settles O19: a fault leaves the prologue's REDRAW = 0, and a completed cycle sets it exactly by drawing. -/
theorem redrawSaysWhetherTheCycleDrew : Obligations.RedrawSaysWhetherTheCycleDrew := by
  intro s t hr h
  obtain ⟨c, w, info, hc, -, rfl⟩ | ⟨i, u, -, hn, he, hu, rfl⟩ := step_faults_or_completes hr h
  · exact iff_of_false Bool.false_ne_true fun ht => hc ht.1
  · have hdraw : u.redraw = drawsDisplay i := (exec_redraw he hu).trans (Bool.or_false _)
    simp [hdraw, hu, hn]

/-- Settles O20: a fault clears WAITING in a cycle that is no FX0A, and the epilogue sets it by the row and KEYS. -/
theorem waitingSaysWhetherTheCycleWaited : Obligations.WaitingSaysWhetherTheCycleWaited := by
  intro s t hr h
  obtain ⟨c, w, info, -, hne, rfl⟩ | ⟨i, u, -, hn, he, hu, rfl⟩ := step_faults_or_completes hr h
  · exact iff_of_false Bool.false_ne_true fun ⟨_, x, hx⟩ => hne _ hx rfl
  · have hkeys : u.keys = s.keysIn := exec_keys he
    simp [hkeys, hn, isKeyWait_iff, and_comm]

/-- Settles O21: every cycle keeps the KEYS that its prologue loaded. -/
theorem keysAreTheSnapshotOfTheCycle : Obligations.KeysAreTheSnapshotOfTheCycle := by
  refine ⟨fun s t hr h => ?_, fun i s t h => exec_keys h⟩
  obtain ⟨c, w, info, -, -, rfl⟩ | ⟨i, u, -, -, he, -, rfl⟩ := step_faults_or_completes hr h
  · rfl
  · exact (epilogue_keys i u).trans (exec_keys he)

/-! ## The fault registers -/

theorem toNat_ofNat_max (a : Word) : (BitVec.ofNat 16 (max a.toNat 0x1000)).toNat = max a.toNat 0x1000 := by
  rw [BitVec.toNat_ofNat]; omega

/-- A fault of execute describes itself, when the word at PC is the instruction's. -/
theorem FaultInfo.describes {info : Word} (hf : FaultInfo s i info) (hpc : s.pc.toNat ≤ 0xFFE)
    (hw : encode i = s.wordAtPc) : (raiseFault (faultOf i) (encode i) info s).FaultRegsDescribe := by
  refine ⟨fun _ _ => ⟨hpc, hw⟩, ?_⟩
  cases hf with
  | memOob hi =>
    have hcause : faultOf i = .memOob := by
      obtain ⟨x, y, n, rfl⟩ | ⟨x, rfl⟩ | ⟨x, rfl⟩ | ⟨x, rfl⟩ := hi <;> rfl
    rw [raiseFault_faultCause, hcause]
    exact ⟨toNat_ofNat_max s.i, i, rfl, hi⟩
  | stackOverflow nnn h => exact ⟨h, rfl, nnn, rfl⟩
  | stackUnderflow h => exact ⟨h, rfl, rfl⟩
  | keyIndex x hi h =>
    obtain rfl | rfl := hi
    · exact ⟨x, h, rfl, .inl rfl⟩
    · exact ⟨x, h, rfl, .inr rfl⟩

/-- Settles O14: by the stage in which a running cycle faults; a completed cycle latches nothing. -/
theorem faultRegistersDescribeTheFault : Obligations.FaultRegistersDescribeTheFault := by
  intro s t hs h
  by_cases hr : s.faultCause = .none
  · rcases step_cases hr h with ⟨a, hf, rfl⟩ | ⟨w, e, hf, hd, rfl⟩ | ⟨w, i, info, hf, hd, hne, he, rfl⟩ |
      ⟨w, i, u, -, -, -, hu, rfl⟩
    · obtain ⟨hpc, rfl⟩ := fetch_eq_error hf
      exact ⟨fun _ hc => absurd rfl hc, rfl, hpc, toNat_ofNat_max s.pc⟩
    · exact ⟨fun _ _ => fetch_eq_ok hf, rfl, e, hd⟩
    · obtain ⟨hpc, hw⟩ := fetch_eq_ok hf
      have hshift : ∀ x, i ≠ .shr x ∧ i ≠ .shl x := fun x => ⟨fun e => hne (e ▸ rfl), fun e => hne (e ▸ rfl)⟩
      exact (exec_faultInfo he hr hne).describes hpc ((encode_of_decode hshift hd).trans hw)
    · have hcause : (endStrobe (epilogue i u)).faultCause = .none := (epilogue_faultCause i u).trans hu
      refine ⟨fun hc => absurd hcause hc, ?_⟩
      rw [hcause]
      trivial
  · cases (step_halted hr).symm.trans h
    exact hs

/-! ## Reset -/

/-- Settles O58: the registers by the definition of reset, and memory by what reset with a font reads. -/
theorem resetState : Obligations.ResetState := by
  refine ⟨fun r => ?_, rfl, rfl, rfl, fun j => ?_, rfl, rfl, fun a ha => unlisted_above_font ha, Display.pixel_blank, rfl,
    rfl, rfl, rfl, rfl, rfl, rfl, rfl, rfl, fun font => ⟨rfl, State.read_resetWith font, fun s =>
      ⟨State.wf_resetWith font, State.read_assertReset font s, rfl⟩⟩⟩
  · exact Vector.getElem_replicate r.isLt
  · exact Vector.getElem_replicate j.isLt

end Sys2Proof.Machine
end

section
/-! PROOFS for 20_memory.md. A canonical memory is determined by what it reads as; the stores reach only the bytes they
name; and a cycle is run from the two bytes at PC, the one at PC high. -/

namespace Sys2Proof.Machine

/-! ## Reads and the canonical form -/

/-- An address below every listed one is unlisted. -/
theorem Memory.read_below {m : Memory} {a : Nat} (h : ∀ c ∈ m, a < c.1) : m.read a = unlisted a := by
  induction m with
  | nil => rfl
  | cons c m ih =>
    obtain ⟨hc, hm⟩ := List.forall_mem_cons.mp h
    rw [Memory.read_cons, if_neg hc.ne', ih hm]

theorem Memory.read_cons_self (k : Nat) (b : Byte) (m : Memory) : Memory.read ((k, b) :: m) k = b := if_pos rfl

/-- The first cell of a canonical memory reads as something other than its unlisted byte, which any memory that lists
higher addresses alone reads there. -/
theorem Memory.wf_read_first_ne {k : Nat} {b : Byte} {m m' : Memory} (h : Memory.wf ((k, b) :: m) = true)
    (h' : ∀ c ∈ m', k < c.1) : Memory.read ((k, b) :: m) k ≠ m'.read k := by
  obtain ⟨⟨-, hb⟩, -, -⟩ := (Memory.wf_cons k b m).mp h
  rwa [Memory.read_cons_self, Memory.read_below h']

/-- An address below the first cell of a canonical memory is below every cell. -/
theorem Memory.wf_lt_of_lt_first {a k : Nat} {b : Byte} {m : Memory} (h : Memory.wf ((k, b) :: m) = true) (ha : a < k) :
    ∀ c ∈ (k, b) :: m, a < c.1 := by
  obtain ⟨-, hm, -⟩ := (Memory.wf_cons k b m).mp h
  exact List.forall_mem_cons.mpr ⟨ha, fun c hc => ha.trans (hm c hc)⟩

/-- Canonical memories that read alike at every address of R28 are the same list: their first cells have the same
address, since the lower one would read as listed in one and as unlisted in the other, and so on along the tails. -/
theorem Memory.wf_ext {m m' : Memory} (hm : m.wf = true) (hm' : m'.wf = true)
    (h : ∀ a, a ≤ 0xFFF → m.read a = m'.read a) : m = m' := by
  induction m generalizing m' with
  | nil =>
    cases m' with
    | nil => rfl
    | cons c' m' =>
      obtain ⟨⟨hk', -⟩, -, -⟩ := (Memory.wf_cons c'.1 c'.2 m').mp hm'
      exact absurd (h _ (by omega)).symm (Memory.wf_read_first_ne hm' nofun)
  | cons c m ih =>
    obtain ⟨k, b⟩ := c
    obtain ⟨⟨hk, -⟩, hlt, htl⟩ := (Memory.wf_cons k b m).mp hm
    cases m' with
    | nil => exact absurd (h k (by omega)) (Memory.wf_read_first_ne hm nofun)
    | cons c' m' =>
      obtain ⟨k', b'⟩ := c'
      obtain ⟨⟨hk', -⟩, hlt', htl'⟩ := (Memory.wf_cons k' b' m').mp hm'
      rcases lt_trichotomy k k' with hkk | rfl | hkk
      · exact absurd (h k (by omega)) (Memory.wf_read_first_ne hm (Memory.wf_lt_of_lt_first hm' hkk))
      · have hhead : b = b' := by simpa [Memory.read_cons] using h k (by omega)
        have htail : ∀ a, a ≤ 0xFFF → Memory.read m a = Memory.read m' a := by
          intro a ha
          by_cases hka : k = a
          · subst hka
            rw [Memory.read_below hlt, Memory.read_below hlt']
          · simpa [Memory.read_cons, hka] using h a ha
        rw [hhead, ih htl htl' htail]
      · exact absurd (h k' (by omega)).symm (Memory.wf_read_first_ne hm' (Memory.wf_lt_of_lt_first hm hkk))

/-- Settles O47, by the law of one write, its canonical form, and extensionality. -/
theorem memoryReadsBackAndIsCanonical : Obligations.MemoryReadsBackAndIsCanonical :=
  ⟨Memory.read_write, fun _ _ b hm ha => Memory.wf_write b hm (by omega), fun _ _ => Memory.wf_ext⟩

/-! ## The bytes a store reaches -/

variable {i : Instr} {s t : State}

/-- A store changes no byte below its base or past its last byte (R53). -/
theorem State.read_writeBytes_outside {a a' : Nat} {bs : List Byte} (h : a' < a ∨ a + bs.length ≤ a') :
    (s.writeBytes a bs).read a' = s.read a' := by
  rw [State.read_writeBytes, dif_neg (by omega)]

/-- Only FX33 and FX55 write memory (R53). -/
theorem exec_mem (h : exec i s = .next t) (hbcd : ∀ x, i ≠ .ldBVx x) (hstore : ∀ x, i ≠ .ldMemVx x) :
    t.mem = s.mem := by
  cases i with
  | ldBVx x => exact absurd rfl (hbcd x)
  | ldMemVx x => exact absurd rfl (hstore x)
  | ret =>
    obtain ⟨u, j, hu, -, -, he⟩ | ⟨-, he⟩ := exec_ret_cases s <;> cases he.symm.trans h
    · rw [hu]; rfl
    · rfl
  | call nnn =>
    obtain ⟨u, -, hu, -, -, he⟩ | ⟨-, he⟩ := exec_call_cases s nnn <;> cases he.symm.trans h
    · rw [hu]; rfl
    · rfl
  | drw x y n => obtain ⟨-, he⟩ | ⟨-, -, he⟩ := exec_drw_cases s x y n <;> cases he.symm.trans h <;> rfl
  | ldVxMem x => obtain ⟨-, he⟩ | ⟨-, he⟩ := exec_ldVxMem_cases s x <;> cases he.symm.trans h <;> rfl
  | skp x => obtain ⟨-, he⟩ | ⟨-, he⟩ := exec_skp_cases s x <;> cases he.symm.trans h <;> rfl
  | sknp x => obtain ⟨-, he⟩ | ⟨-, he⟩ := exec_sknp_cases s x <;> cases he.symm.trans h <;> rfl
  | ldVxK x => obtain ⟨-, he⟩ | ⟨-, k, -, -, -, he⟩ := exec_ldVxK_cases s x <;> cases he.symm.trans h <;> rfl
  | cls | jp | seByte | sneByte | seReg | ldByte | addByte | ldReg | orReg | andReg | xorReg | addReg | sub | shr | subn
  | shl | sneReg | ldI | jpV0 | rnd | ldVxDt | ldDtVx | ldStVx | addIVx | ldFVx => cases h; rfl

/-- FX33 reaches I, I + 1 and I + 2 alone: its fault stores nothing (R50, R103). -/
theorem exec_ldBVx_read {x : Reg} {a : Nat} (h : exec (.ldBVx x) s = .next t)
    (ha : a < s.i.toNat ∨ s.i.toNat + 3 ≤ a) : t.read a = s.read a := by
  obtain ⟨-, he⟩ | ⟨-, he⟩ := exec_ldBVx_cases s x <;> cases he.symm.trans h
  · exact State.read_writeBytes_outside ha
  · rfl

/-- FX55 reaches I .. I + x alone: its fault stores nothing (R50, R104). -/
theorem exec_ldMemVx_read {x : Reg} {a : Nat} (h : exec (.ldMemVx x) s = .next t)
    (ha : a < s.i.toNat ∨ s.i.toNat + x.val < a) : t.read a = s.read a := by
  obtain ⟨-, he⟩ | ⟨-, he⟩ := exec_ldMemVx_cases s x <;> cases he.symm.trans h
  · exact State.read_writeBytes_outside (by rw [State.regsUpTo_length]; omega)
  · rfl

/-- Settles O25, by the frame of memory and the reach of each of the two stores. -/
theorem storesReachOnlyTheirBytes : Obligations.StoresReachOnlyTheirBytes := by
  refine fun i s t a h => ⟨exec_mem h, ?_, ?_⟩
  · rintro x rfl ha
    exact exec_ldBVx_read h ha
  · rintro x rfl ha
    exact exec_ldMemVx_read h ha

/-! ## The cycle from the bytes at PC -/

/-- A cycle whose fetched word the decoder rejects takes the decode fault (R68, R117). -/
theorem step_of_decode_error {w : Word} {e : DecodeReject} (hr : s.faultCause = .none) (hf : fetch s = .ok w)
    (hd : decode w = .error e) : step s = .next (endStrobe (raiseFault .decode w 0 (prologue s))) := by
  rw [step_running hr, runCycle, fetch_prologue, hf]
  simp only [hd]

/-- Settles O9: the fetch reads the word of the two bytes, and its decode fault is latched on the prologue's state. -/
theorem illegalWordTakesTheDecodeFault : Obligations.IllegalWordTakesTheDecodeFault := fun _ _ hr hpc hd =>
  step_of_decode_error hr (fetch_of_le hpc) hd

/-- The row that waits is the one of the mnemonic FX0A (R69). -/
theorem isKeyWait_eq_mnemonic (i : Instr) : isKeyWait i = decide (i.mnemonic = "FX0A") := by
  cases i <;> rfl

/-- Settles O6: the fetch reads the word of the two bytes, and after its execute, which leaves the host's inputs alone,
the epilogue runs unless a fault was taken. -/
theorem stepRunsTheDecodedInstruction : Obligations.StepRunsTheDecodedInstruction := by
  intro s t i hr hpc hd he
  have hstep := step_of_decode hr (fetch_of_le hpc) hd he
  obtain ⟨-, -, hinputs, hdraws⟩ := exec_sndx_and_host he
  refine ⟨fun ht => ?_, fun ht => ?_⟩
  · rw [hstep, if_pos ht, epilogue_eq, isKeyWait_eq_mnemonic, ← Bool.decide_and, endStrobe, hinputs, hdraws]
  · rw [hstep, if_neg ht, endStrobe, hinputs, hdraws]

end Sys2Proof.Machine
end

section
/-! PROOFS for 30_encoding.md. First the round trip; then the two shifts, the only words with an ignored field; then the
opcode table, from the words of each format; then the illegal words; then the cycles that execute no instruction. -/

namespace Sys2Proof

variable {w : Word} {x y : Reg} {n : Nibble} {kk : Byte} {i : Instr} {r : OpcodeRow}

/-! ## The round trip -/

/-- The decoder reads back every encoded instruction: the fields of a word of each format are those it was made of. -/
theorem decode_encode (i : Instr) : decode (encode i) = .ok i := by
  cases i with
  | cls | ret => rfl
  | jp | call | ldI | jpV0 => simp [encode, decode, wordA_fields]
  | seByte | sneByte | ldByte | addByte | rnd => simp [encode, decode, wordRK_fields]
  | seReg | sneReg | drw => simp [encode, decode, wordRRN_fields]
  | ldReg | orReg | andReg | xorReg | addReg | sub | shr | subn | shl => simp [encode, decode, decode8, wordRRN_fields]
  | skp | sknp => simp [encode, decode, decodeE, wordRK_fields]
  | ldVxDt | ldVxK | ldDtVx | ldStVx | addIVx | ldFVx | ldBVx | ldMemVx | ldVxMem =>
    simp [encode, decode, decodeF, wordRK_fields]

theorem decodeBytes_encodeBytes_append (i : Instr) (rest : List Byte) :
    decodeBytes (encodeBytes i ++ rest) = .ok (i, rest) := by
  simp [encodeBytes, decodeBytes, wordOfBytes_hiByte_loByte, decode_encode]

/-- Settles O1, by the round trip of the word, which is its two bytes. -/
theorem decodeReadsBackEncode : Obligations.DecodeReadsBackEncode := fun i rest _ =>
  ⟨decode_encode i, decodeBytes_encodeBytes_append i rest⟩

/-- Settles O5, by running the decoder on the six words. -/
theorem wordsOfEachFormatDecode : Obligations.WordsOfEachFormatDecode := by
  unfold Obligations.WordsOfEachFormatDecode
  decide

/-! ## The shifts -/

/-- `i` is a shift of V[x], and `n` is the low nibble that its row fixes (R95, R97). -/
inductive IsShift : Instr → Reg → Nibble → Prop
  | right (x : Reg) : IsShift (.shr x) x 0x6#4
  | left (x : Reg) : IsShift (.shl x) x 0xE#4

/-- In family 8 the low nibble of a shift selects it, and V[x] is its register. -/
theorem decode8_eq_shift_iff {z : Reg} {m : Nibble} (hi : IsShift i z m) :
    decode8 x y n = .ok i ↔ x = z ∧ n = m := by
  constructor
  · intro h
    unfold decode8 at h
    -- of the rows' instructions only two are shifts
    split_ifs at h <;> cases h <;> cases hi
    all_goals exact ⟨rfl, ‹_›⟩
  · rintro ⟨rfl, rfl⟩
    cases hi <;> rfl

/-- No family but 8 decodes to a shift. -/
theorem decode_ne_shift_of_op_ne (hi : IsShift i x n) (hop : opField w ≠ 0x8#4) : decode w ≠ .ok i := by
  cases hi <;> simp [decode, hop, decode0, decodeE, decodeF, ite_eq_iff]

/-- The words of a shift are those with its top nibble, x and low nibble, whatever y is (R76). -/
theorem decode_eq_shift_iff (hi : IsShift i x n) :
    decode w = .ok i ↔ opField w = 0x8#4 ∧ xField w = x ∧ nField w = n := by
  by_cases hop : opField w = 0x8#4
  · have h8 : decode w = decode8 (xField w) (yField w) (nField w) := by simp [decode, hop]
    rw [h8, decode8_eq_shift_iff hi, and_iff_right hop]
  · exact iff_of_false (decode_ne_shift_of_op_ne hi hop) fun h => hop h.1

theorem encode_shift (hi : IsShift i x n) : encode i = wordRRN 0x8#4 x 0 n := by
  cases hi <;> rfl

/-- The mask 0xFF0F clears the y field. -/
theorem and_clear_y (w : Word) : w &&& 0xFF0F#16 = wordRRN (opField w) (xField w) 0 (nField w) := by
  have hmask : (0xFF0F#16 : Word) = wordRRN 0xF#4 (regOf 0xF#4) (regOf 0x0#4) 0xF#4 := by decide
  rw [hmask, word_and_mask, reg_and_zero, nibble_and_ones, nibble_and_ones, nibble_and_ones, xField]

theorem encode_eq_and_of_decode_shift (hi : IsShift i x n) (h : decode w = .ok i) : encode i = w &&& 0xFF0F#16 := by
  obtain ⟨hop, hx, hn⟩ := (decode_eq_shift_iff hi).mp h
  rw [and_clear_y, hop, hx, hn, encode_shift hi]

/-- A shift's word with any y decodes to the shift. -/
theorem decode_wordRRN_shift (hi : IsShift i x n) (y : Reg) : decode (wordRRN 0x8#4 x y n) = .ok i := by
  obtain ⟨hop, hx, -, hn⟩ := wordRRN_fields 0x8#4 x y n
  exact (decode_eq_shift_iff hi).mpr ⟨hop, hx, hn⟩

/-- Settles O2: a shift's words by its fields, and every other word by `encode_of_decode`. -/
theorem onlyShiftsIgnoreAField : Obligations.OnlyShiftsIgnoreAField := by
  refine ⟨fun x y => ⟨decode_wordRRN_shift (.right x) y, decode_wordRRN_shift (.left x) y⟩, fun w i h =>
    ⟨fun hs => encode_of_decode hs h, ?_⟩⟩
  rintro x (rfl | rfl)
  · exact encode_eq_and_of_decode_shift (.right x) h
  · exact encode_eq_and_of_decode_shift (.left x) h

/-! ## The opcode table -/

section
open Laws.EncodesInItsRow

/-- Every instruction's word is selected by the row of its name, constructor by constructor. -/
theorem encode_selected_by_its_row : ∀ i : Instr, Statement i
  | .cls => cls | .ret => ret | .jp nnn => jp nnn | .call nnn => call nnn | .seByte x kk => seByte x kk
  | .sneByte x kk => sneByte x kk | .seReg x y => seReg x y | .ldByte x kk => ldByte x kk
  | .addByte x kk => addByte x kk | .ldReg x y => ldReg x y | .orReg x y => orReg x y | .andReg x y => andReg x y
  | .xorReg x y => xorReg x y | .addReg x y => addReg x y | .sub x y => sub x y | .shr x => shr x
  | .subn x y => subn x y | .shl x => shl x | .sneReg x y => sneReg x y | .ldI nnn => ldI nnn | .jpV0 nnn => jpV0 nnn
  | .rnd x kk => rnd x kk | .drw x y n => drw x y n | .skp x => skp x | .sknp x => sknp x | .ldVxDt x => ldVxDt x
  | .ldVxK x => ldVxK x | .ldDtVx x => ldDtVx x | .ldStVx x => ldStVx x | .addIVx x => addIVx x | .ldFVx x => ldFVx x
  | .ldBVx x => ldBVx x | .ldMemVx x => ldMemVx x | .ldVxMem x => ldVxMem x

end

theorem shift_selected_by_its_row (hi : IsShift i x n) (h : decode w = .ok i) :
    ∃ r ∈ opcodeRows, r.selects w = true ∧ r.mnemonic = i.mnemonic := by
  obtain ⟨hop, -, hn⟩ := (decode_eq_shift_iff hi).mp h
  have hrow : (⟨i.mnemonic, wordRRN 0x8#4 0 0 n, 0xF00F#16⟩ : OpcodeRow) ∈ opcodeRows := by
    cases hi <;> exact of_decide_eq_true rfl
  exact ⟨_, hrow, decide_eq_true ((select_op_n w 0x8#4 n).mpr ⟨hop, hn⟩), rfl⟩

/-- A legal word is selected by its instruction's row: it is the instruction's encoding, or a shift's word. -/
theorem exists_row_of_decode (h : decode w = .ok i) :
    ∃ r ∈ opcodeRows, r.selects w = true ∧ r.mnemonic = i.mnemonic := by
  by_cases hs : ∀ x, i ≠ .shr x ∧ i ≠ .shl x
  · exact encode_of_decode hs h ▸ encode_selected_by_its_row i
  · obtain ⟨x, hx⟩ := not_forall.mp hs
    obtain rfl | rfl : i = .shr x ∨ i = .shl x := by tauto
    · exact shift_selected_by_its_row (.right x) h
    · exact shift_selected_by_its_row (.left x) h

/-- Two rows that select a word agree where both masks look. -/
theorem OpcodeRow.and_mask_eq_of_selects {r r' : OpcodeRow} (h : r.selects w = true) (h' : r'.selects w = true) :
    r.pattern &&& r'.mask = r'.pattern &&& r.mask := by
  rw [← of_decide_eq_true h, ← of_decide_eq_true h', BitVec.and_assoc, BitVec.and_assoc, BitVec.and_comm r.mask]

theorem opcodeRows_disjoint : ∀ r ∈ opcodeRows, ∀ r' ∈ opcodeRows,
    r.pattern &&& r'.mask = r'.pattern &&& r.mask → r = r' := by
  decide

/-! ### The words a row selects, in the row's format (R71) -/

variable {op : Nibble}

theorem wordA_of_select (h : w &&& 0xF000#16 = wordRRN op 0 0 0) : wordA op (nnnField w) = w :=
  wordA_of_field ((select_op w op).mp h)

theorem wordRK_of_select (h : w &&& 0xF000#16 = wordRRN op 0 0 0) : wordRK op (xField w) (kkField w) = w :=
  wordRK_of_fields ((select_op w op).mp h)

theorem wordRRN_of_select (h : w &&& 0xF000#16 = wordRRN op 0 0 0) :
    wordRRN op (xField w) (yField w) (nField w) = w :=
  wordRRN_of_fields ((select_op w op).mp h) rfl

theorem wordRR_of_select (h : w &&& 0xF00F#16 = wordRRN op 0 0 n) : wordRRN op (xField w) (yField w) n = w :=
  have ⟨hop, hn⟩ := (select_op_n w op n).mp h
  wordRRN_of_fields hop hn

theorem wordRF_of_select (h : w &&& 0xF0FF#16 = wordRK op 0 kk) : wordRK op (xField w) kk = w :=
  have ⟨hop, hkk⟩ := (select_op_kk w op kk).mp h
  hkk ▸ wordRK_of_fields hop

/-! ### The instruction of a selected word -/

/-- `w` decodes to an instruction of the row named `m` (R68). -/
def DecodesToRow (w : Word) (m : String) : Prop := ∃ i, decode w = .ok i ∧ i.mnemonic = m

theorem decodesToRow_of_encode_eq (i : Instr) (h : encode i = w) : DecodesToRow w i.mnemonic :=
  ⟨i, h ▸ decode_encode i, rfl⟩

theorem decodesToRow_of_select_shift (hi : IsShift i (xField w) n) (h : w &&& 0xF00F#16 = wordRRN 0x8#4 0 0 n) :
    DecodesToRow w i.mnemonic :=
  have ⟨hop, hn⟩ := (select_op_n w 0x8#4 n).mp h
  ⟨i, (decode_eq_shift_iff hi).mpr ⟨hop, rfl, hn⟩, rfl⟩

theorem decodesToRow_of_mem_opcodeRowsLow (hr : r ∈ opcodeRowsLow) (h : w &&& r.mask = r.pattern) :
    DecodesToRow w r.mnemonic := by
  fin_cases hr
  · exact decodesToRow_of_encode_eq .cls (h.symm.trans BitVec.and_allOnes)
  · exact decodesToRow_of_encode_eq .ret (h.symm.trans BitVec.and_allOnes)
  · exact decodesToRow_of_encode_eq (.jp _) (wordA_of_select h)
  · exact decodesToRow_of_encode_eq (.call _) (wordA_of_select h)
  · exact decodesToRow_of_encode_eq (.seByte _ _) (wordRK_of_select h)
  · exact decodesToRow_of_encode_eq (.sneByte _ _) (wordRK_of_select h)
  · exact decodesToRow_of_encode_eq (.seReg _ _) (wordRR_of_select h)
  · exact decodesToRow_of_encode_eq (.ldByte _ _) (wordRK_of_select h)
  · exact decodesToRow_of_encode_eq (.addByte _ _) (wordRK_of_select h)

theorem decodesToRow_of_mem_opcodeRows8 (hr : r ∈ opcodeRows8) (h : w &&& r.mask = r.pattern) :
    DecodesToRow w r.mnemonic := by
  fin_cases hr
  · exact decodesToRow_of_encode_eq (.ldReg _ _) (wordRR_of_select h)
  · exact decodesToRow_of_encode_eq (.orReg _ _) (wordRR_of_select h)
  · exact decodesToRow_of_encode_eq (.andReg _ _) (wordRR_of_select h)
  · exact decodesToRow_of_encode_eq (.xorReg _ _) (wordRR_of_select h)
  · exact decodesToRow_of_encode_eq (.addReg _ _) (wordRR_of_select h)
  · exact decodesToRow_of_encode_eq (.sub _ _) (wordRR_of_select h)
  · exact decodesToRow_of_select_shift (.right _) h
  · exact decodesToRow_of_encode_eq (.subn _ _) (wordRR_of_select h)
  · exact decodesToRow_of_select_shift (.left _) h

theorem decodesToRow_of_mem_opcodeRowsHigh (hr : r ∈ opcodeRowsHigh) (h : w &&& r.mask = r.pattern) :
    DecodesToRow w r.mnemonic := by
  fin_cases hr
  · exact decodesToRow_of_encode_eq (.sneReg _ _) (wordRR_of_select h)
  · exact decodesToRow_of_encode_eq (.ldI _) (wordA_of_select h)
  · exact decodesToRow_of_encode_eq (.jpV0 _) (wordA_of_select h)
  · exact decodesToRow_of_encode_eq (.rnd _ _) (wordRK_of_select h)
  · exact decodesToRow_of_encode_eq (.drw _ _ _) (wordRRN_of_select h)
  · exact decodesToRow_of_encode_eq (.skp _) (wordRF_of_select h)
  · exact decodesToRow_of_encode_eq (.sknp _) (wordRF_of_select h)
  · exact decodesToRow_of_encode_eq (.ldVxDt _) (wordRF_of_select h)
  · exact decodesToRow_of_encode_eq (.ldVxK _) (wordRF_of_select h)
  · exact decodesToRow_of_encode_eq (.ldDtVx _) (wordRF_of_select h)
  · exact decodesToRow_of_encode_eq (.ldStVx _) (wordRF_of_select h)
  · exact decodesToRow_of_encode_eq (.addIVx _) (wordRF_of_select h)
  · exact decodesToRow_of_encode_eq (.ldFVx _) (wordRF_of_select h)
  · exact decodesToRow_of_encode_eq (.ldBVx _) (wordRF_of_select h)
  · exact decodesToRow_of_encode_eq (.ldMemVx _) (wordRF_of_select h)
  · exact decodesToRow_of_encode_eq (.ldVxMem _) (wordRF_of_select h)

/-- A word that a row selects decodes to an instruction of that row: it is an encoding of one, or a shift's word. -/
theorem decodesToRow_of_selects (hr : r ∈ opcodeRows) (h : r.selects w = true) : DecodesToRow w r.mnemonic := by
  obtain hr | hr : r ∈ opcodeRowsLow ∨ r ∈ opcodeRows8 ++ opcodeRowsHigh := List.mem_append.mp hr
  · exact decodesToRow_of_mem_opcodeRowsLow hr (of_decide_eq_true h)
  obtain hr | hr := List.mem_append.mp hr
  · exact decodesToRow_of_mem_opcodeRows8 hr (of_decide_eq_true h)
  · exact decodesToRow_of_mem_opcodeRowsHigh hr (of_decide_eq_true h)

/-- Settles O3: the row of a legal word, the instruction of a selected word, and that no two rows overlap. -/
theorem decoderFollowsTheOpcodeTable : Obligations.DecoderFollowsTheOpcodeTable :=
  ⟨fun _ _ h => exists_row_of_decode h, fun _ _ hr h => decodesToRow_of_selects hr h, fun _ r hr r' hr' h h' =>
    opcodeRows_disjoint r hr r' hr' (OpcodeRow.and_mask_eq_of_selects h h')⟩

/-! ## The illegal words -/

theorem decode0_eq_error_iff : (∃ e, decode0 w = .error e) ↔ w.toNat ≠ 0x00E0 ∧ w.toNat ≠ 0x00EE := by
  simp [decode0, ite_eq_iff, BitVec.toNat_eq]

theorem decode8_eq_error_iff :
    (∃ e, decode8 x y n = .error e) ↔ n.toNat ∈ [0x8, 0x9, 0xA, 0xB, 0xC, 0xD, 0xF] := by
  simp [decode8, ite_eq_iff, BitVec.toNat_eq]
  omega

theorem decodeE_eq_error_iff : (∃ e, decodeE x kk = .error e) ↔ kk.toNat ∉ [0x9E, 0xA1] := by
  simp [decodeE, ite_eq_iff, BitVec.toNat_eq]

theorem decodeF_eq_error_iff :
    (∃ e, decodeF x kk = .error e) ↔ kk.toNat ∉ [0x07, 0x0A, 0x15, 0x18, 0x1E, 0x29, 0x33, 0x55, 0x65] := by
  simp [decodeF, ite_eq_iff, BitVec.toNat_eq]

theorem nibble_cases : ∀ b : Nibble, b = 0x0#4 ∨ b = 0x1#4 ∨ b = 0x2#4 ∨ b = 0x3#4 ∨ b = 0x4#4 ∨ b = 0x5#4 ∨
    b = 0x6#4 ∨ b = 0x7#4 ∨ b = 0x8#4 ∨ b = 0x9#4 ∨ b = 0xA#4 ∨ b = 0xB#4 ∨ b = 0xC#4 ∨
    b = 0xD#4 ∨ b = 0xE#4 ∨ b = 0xF#4 := by
  decide

/-- The decoder rejects in six families, each by the field that selects its rows (R74). -/
theorem decode_eq_error_iff : (∃ e, decode w = .error e) ↔
    (opField w = 0x0#4 ∧ ∃ e, decode0 w = .error e) ∨
    (opField w = 0x5#4 ∧ nField w ≠ 0x0#4) ∨
    (opField w = 0x8#4 ∧ ∃ e, decode8 (xField w) (yField w) (nField w) = .error e) ∨
    (opField w = 0x9#4 ∧ nField w ≠ 0x0#4) ∨
    (opField w = 0xE#4 ∧ ∃ e, decodeE (xField w) (kkField w) = .error e) ∨
    (opField w = 0xF#4 ∧ ∃ e, decodeF (xField w) (kkField w) = .error e) := by
  rcases nibble_cases (opField w) with h | h | h | h | h | h | h | h | h | h | h | h | h | h | h | h <;>
    simp [decode, h, ite_eq_iff]

/-- Settles O4: each family rejects by its selecting field, and the fields are the word's hex digits. -/
theorem illegalWordsAreThoseOfTheTable : Obligations.IllegalWordsAreThoseOfTheTable := by
  intro w
  rw [decode_eq_error_iff, decode0_eq_error_iff, decode8_eq_error_iff, decodeE_eq_error_iff, decodeF_eq_error_iff,
    ← nField_toNat, ← kkField_toNat, ← opField_toNat]
  simp only [BitVec.toNat_eq, BitVec.toNat_ofNat, Nat.reducePow, Nat.reduceMod, ne_eq]

end Sys2Proof

namespace Sys2Proof.Machine

/-! ## The cycles that execute nothing -/

/-- Settles O7: each step of a halted block answers the state it started from. -/
theorem haltedBlockIgnoresStrobes : Obligations.HaltedBlockIgnoresStrobes := by
  intro s k hs
  induction k with
  | zero => rfl
  | succ k ih => exact (afterCycles_succ k s s).mpr ⟨s, step_halted hs, ih⟩

/-- A cycle whose fetch runs past memory takes FETCH_OOB (R66, R118). -/
theorem step_of_fetch_error {s : State} {a : Nat} (hr : s.faultCause = .none) (hf : fetch s = .error a) :
    step s = .next (endStrobe (raiseFault .fetchOob 0 (BitVec.ofNat 16 a) (prologue s))) := by
  rw [step_running hr, runCycle, fetch_prologue, hf]

/-- Settles O8: the fetch fails with the lowest out-of-range address, and the prologue's state takes its fault. -/
theorem fetchAboveMemoryFaults : Obligations.FetchAboveMemoryFaults := fun _ hr hpc =>
  step_of_fetch_error hr (fetch_of_gt hpc)

end Sys2Proof.Machine
end

section
/-! PROOFS for 40_flow.md. The call stack first, each result from the cases of 00EE and 2NNN, then the jumps and the
skips, which write PC alone. -/

namespace Sys2Proof

/-- A nonzero low nibble in family 5 or 9 is an illegal word (R74). -/
theorem decode_wordRRN_error_of_low_nibble {op n : Nibble} (hop : op = 0x5#4 ∨ op = 0x9#4) (hn : n ≠ 0) (x y : Reg) :
    ∃ e, decode (wordRRN op x y n) = .error e := by
  obtain ⟨hw, -, -, hnw⟩ := wordRRN_fields op x y n
  rw [decode_eq_error_iff, hw, hnw]
  obtain h5 | h9 := hop
  · exact .inr (.inl ⟨h5, hn⟩)
  · exact .inr (.inr (.inr (.inl ⟨h9, hn⟩)))

end Sys2Proof

namespace Sys2Proof.Machine

/-! ## Call and return -/

/-- Settles O27: with SP above 0, the case of 00EE that pops. -/
theorem returnPopsIntoPc : Obligations.ReturnPopsIntoPc := by
  intro s hsp
  obtain ⟨u, j, hu, hspu, hj, he⟩ | ⟨hsp0, -⟩ := exec_ret_cases s
  · refine ⟨_, he, congrArg (State.jump · s.stack[j]) hu, hspu, fun j' hj' => ?_⟩
    have hjj : j' = j := Fin.ext (by omega)
    rw [hjj, State.jump_pc]
  · exact absurd hsp0 hsp

/-- Settles O29: with SP below 16, the case of 2NNN that pushes. -/
theorem callPushesTheReturnAddress : Obligations.CallPushesTheReturnAddress := by
  intro nnn s hsp
  obtain ⟨u, -, hu, hspu, hst, he⟩ | ⟨hsp16, -⟩ := exec_call_cases s nnn
  · exact ⟨_, he, congrArg (State.jump · (zext16 nnn)) hu, hspu, hst⟩
  · exact absurd hsp16 hsp

/-- Settles O30: the return pops the entry at the old SP, which is the one the call pushed. -/
theorem returnUndoesCall : Obligations.ReturnUndoesCall := by
  intro nnn s t u hsp ht husp hust
  obtain ⟨t', ht', -, htsp, htst⟩ := callPushesTheReturnAddress nnn s hsp
  cases ht'.symm.trans ht
  have hu : u.sp.val = s.sp.val + 1 := husp ▸ htsp
  obtain ⟨w, hw, -, hwsp, hwpc⟩ := returnPopsIntoPc u fun h0 => by simp [h0] at hu
  refine ⟨w, hw, ?_, Fin.ext (by omega)⟩
  have hlt : s.sp.val < 16 := by have := u.sp.isLt; omega
  rw [hwpc ⟨s.sp.val, hlt⟩ hu.symm, hust, htst, if_pos rfl]

/-! ## Jumps -/

/-- Settles O28, by the round trip of the word and the equation of 1NNN. -/
theorem jumpWritesPc : Obligations.JumpWritesPc := fun nnn s => ⟨decode_encode (.jp nnn), exec_jp s nnn⟩

/-- A byte and an address together do not reach the width of PC (R86). -/
theorem toNat_zext16_byte_add_addr (b : Byte) (a : Addr) : (zext16 b + zext16 a).toNat = b.toNat + a.toNat := by
  rw [BitVec.toNat_add, zext16_toNat (by decide), zext16_toNat (by decide)]
  omega

/-- Settles O32: the equation of BNNN, whose sum does not wrap. -/
theorem indexedJumpIsExact : Obligations.IndexedJumpIsExact := fun nnn s =>
  ⟨_, exec_jpV0 s nnn, rfl, toNat_zext16_byte_add_addr (s.getV 0) nnn⟩

/-! ## Skips -/

/-- A skip whose condition bit tests `p` moves PC by `p` (R78). -/
theorem State.skipIf_eq_of_iff {c : Bool} {p : Prop} [Decidable p] (h : c = true ↔ p) (s : State) :
    s.skipIf c = { s with pc := if p then s.pc + 4 else s.pc + 2 } := by
  simp only [State.skipIf, h]

/-- Settles O31: the words by the round trip and the low nibble's rejection, the next states by each skip's test. -/
theorem skipsMovePc : Obligations.SkipsMovePc := fun x y kk s =>
  ⟨decode_encode (.seByte x kk), decode_encode (.sneByte x kk), decode_encode (.seReg x y), decode_encode (.sneReg x y),
    fun _ hn => ⟨decode_wordRRN_error_of_low_nibble (.inl rfl) hn x y,
      decode_wordRRN_error_of_low_nibble (.inr rfl) hn x y⟩,
    (exec_seByte s x kk).trans (congrArg _ (State.skipIf_eq_of_iff beq_iff_eq s)),
    (exec_sneByte s x kk).trans (congrArg _ (State.skipIf_eq_of_iff bne_iff_ne s)),
    (exec_seReg s x y).trans (congrArg _ (State.skipIf_eq_of_iff beq_iff_eq s)),
    (exec_sneReg s x y).trans (congrArg _ (State.skipIf_eq_of_iff bne_iff_ne s))⟩

end Sys2Proof.Machine
end

section
/-! PROOFS for 41_alu.md. The flags and results as numbers first; then what each order of register writes leaves, once
for every instruction that has it (R14): a result alone, a result and then the flag, the flag and then a result. -/

namespace Sys2Proof.Machine

/-! ## Flags and results as numbers -/

theorem toNat_carryFlag (a b : Byte) : (carryFlag a b).toNat = if 255 < a.toNat + b.toNat then 1 else 0 :=
  apply_ite BitVec.toNat _ _ _

theorem toNat_aboveFlag (a b : Byte) : (aboveFlag a b).toNat = if b.toNat < a.toNat then 1 else 0 :=
  apply_ite BitVec.toNat _ _ _

/-- Equal operands give no flag (R94, R96, C2). -/
theorem aboveFlag_self (a : Byte) : aboveFlag a a = 0 := if_neg (lt_irrefl _)

theorem toNat_lowBitFlag (a : Byte) : (lowBitFlag a).toNat = a.toNat % 2 :=
  (BitVec.toNat_and a 1).trans (Nat.and_one_is_mod _)

theorem toNat_shiftRight_one (a : Byte) : (a >>> 1).toNat = a.toNat / 2 := by
  rw [BitVec.toNat_ushiftRight, Nat.shiftRight_eq_div_pow, pow_one]

theorem toNat_shiftLeft_one (a : Byte) : (a <<< 1).toNat = a.toNat * 2 % 256 := by
  rw [BitVec.toNat_shiftLeft, Nat.shiftLeft_eq, pow_one]

theorem toNat_highBitFlag (a : Byte) : (highBitFlag a).toNat = a.toNat / 128 := by
  have hbit : (highBitFlag a).toNat = a.toNat / 128 % 2 := by
    rw [highBitFlag, BitVec.toNat_and, BitVec.toNat_ushiftRight, Nat.shiftRight_eq_div_pow]
    exact Nat.and_one_is_mod _
  omega

/-- A byte difference wraps modulo 256. -/
theorem toNat_byte_sub (a b : Byte) : (a - b).toNat = (a.toNat + 256 - b.toNat) % 256 := by bv_omega

/-! ## Register writes -/

variable {s : State} {i : Instr} {x p q r : Reg} {a b f : Byte}

theorem State.getV_setV_self : (s.setV x b).getV x = b := by rw [State.getV_setV, if_pos rfl]

theorem State.getV_setVF_self : (s.setVF f).getV VF = f := State.getV_setV_self

theorem State.getV_setVF_of_ne (h : r ≠ VF) : (s.setVF f).getV r = s.getV r := State.getV_setV_of_ne h

/-- An instruction that writes V[x] alone. -/
theorem exec_writes_result (h : exec i s = .next (s.setV x b).advance) :
    ∃ t, exec i s = .next t ∧ t = { s with v := t.v, pc := s.pc + 2 } ∧
      ∀ r, t.getV r = if r = x then b else s.getV r :=
  ⟨_, h, rfl, fun r => s.getV_setV x r b⟩

/-- An addition writes the sum and then the carry, which stays in VF for x = 15 too (R88, R93). -/
theorem exec_writes_sum_then_carry
    (h : exec i s = .next ((s.setV x (s.getV x + b)).setVF (carryFlag (s.getV x) b)).advance) :
    ∃ t, exec i s = .next t ∧ t = { s with v := t.v, pc := s.pc + 2 } ∧
      (x ≠ VF → (t.getV x).toNat = ((s.getV x).toNat + b.toNat) % 256) ∧
      (t.getV VF).toNat = (if 255 < (s.getV x).toNat + b.toNat then 1 else 0) ∧
      ∀ r, r ≠ x → r ≠ VF → t.getV r = s.getV r := by
  refine ⟨_, h, rfl, fun hx => ?_, ?_, fun r hx hVF => State.getV_setV_setV_of_ne hx hVF⟩
  · rw [State.getV_advance, State.getV_setVF_of_ne hx, State.getV_setV_self, BitVec.toNat_add]
  · rw [State.getV_advance, State.getV_setVF_self, toNat_carryFlag]

/-- An instruction that writes the flag first: the result stays in V[x], and the flag in VF unless x = 15. -/
theorem exec_writes_flag_then_result (h : exec i s = .next ((s.setVF f).setV x b).advance) :
    ∃ t, exec i s = .next t ∧ t = { s with v := t.v, pc := s.pc + 2 } ∧
      (x ≠ VF → t.getV VF = f) ∧ t.getV x = b ∧ ∀ r, r ≠ x → r ≠ VF → t.getV r = s.getV r :=
  ⟨_, h, rfl, fun hx => (State.getV_setV_of_ne hx.symm).trans State.getV_setVF_self, State.getV_setV_self,
    fun _ hx hVF => State.getV_setV_setV_of_ne hVF hx⟩

/-- A subtraction of V[q] from V[p] writes the flag (V[p] > V[q]) to VF and then the difference to V[x]; an operand that
is VF holds the flag when the difference is formed (R94, R96). With p = q both results are 0. -/
theorem exec_writes_above_then_difference (hf : f = aboveFlag (s.getV p) (s.getV q))
    (h : exec i s = .next ((s.setVF f).setV x ((s.setVF f).getV p - (s.setVF f).getV q)).advance) :
    ∃ t, exec i s = .next t ∧ t = { s with v := t.v, pc := s.pc + 2 } ∧
      (x ≠ VF → (t.getV VF).toNat = if (s.getV q).toNat < (s.getV p).toNat then 1 else 0) ∧
      (p ≠ VF → q ≠ VF → (t.getV x).toNat = ((s.getV p).toNat + 256 - (s.getV q).toNat) % 256) ∧
      (p = VF → q ≠ VF → (t.getV x).toNat =
        ((if (s.getV q).toNat < (s.getV p).toNat then 1 else 0) + 256 - (s.getV q).toNat) % 256) ∧
      (p ≠ VF → q = VF → (t.getV x).toNat =
        ((s.getV p).toNat + 256 - if (s.getV q).toNat < (s.getV p).toNat then 1 else 0) % 256) ∧
      (p = q → t.getV VF = 0 ∧ t.getV x = 0) ∧ ∀ r, r ≠ x → r ≠ VF → t.getV r = s.getV r := by
  obtain ⟨t, he, ht, hVF, hx, hr⟩ := exec_writes_flag_then_result h
  refine ⟨t, he, ht, fun hxVF => ?_, fun hp hq => ?_, ?_, ?_, ?_, hr⟩
  · rw [hVF hxVF, hf, toNat_aboveFlag]
  · rw [hx, toNat_byte_sub, State.getV_setVF_of_ne hp, State.getV_setVF_of_ne hq]
  · rintro rfl hq
    rw [hx, toNat_byte_sub, State.getV_setVF_self, State.getV_setVF_of_ne hq, hf, toNat_aboveFlag]
  · rintro hp rfl
    rw [hx, toNat_byte_sub, State.getV_setVF_of_ne hp, State.getV_setVF_self, hf, toNat_aboveFlag]
  · rintro rfl
    rw [BitVec.sub_self] at hx
    refine ⟨?_, hx⟩
    by_cases hxVF : x = VF
    · rwa [hxVF] at hx
    · rw [hVF hxVF, hf, aboveFlag_self]

/-! ## Loads, bitwise operations and the random byte -/

/-- Settles O33: the words by the round trip, the registers by the one write of each load. -/
theorem registerLoads : Obligations.RegisterLoads := fun x y kk s =>
  ⟨decode_encode (.ldByte x kk), decode_encode (.ldReg x y), exec_writes_result (exec_ldByte s x kk),
    exec_writes_result (exec_ldReg s x y)⟩

/-- Settles O34: each of the three writes V[x] alone. -/
theorem bitwiseOperations : Obligations.BitwiseOperations := fun x y s =>
  ⟨exec_writes_result (exec_orReg s x y), exec_writes_result (exec_andReg s x y),
    exec_writes_result (exec_xorReg s x y)⟩

/-- Settles O40: CXKK writes V[x] alone, with the conjunction of the input and kk. -/
theorem randomByteIsMasked : Obligations.RandomByteIsMasked := by
  intro x kk s
  obtain ⟨t, he, ht, hv⟩ := exec_writes_result (exec_rnd s x kk)
  refine ⟨t, he, ht, fun r hr => by rw [hv, if_neg hr], fun b _ => ?_⟩
  rw [hv, if_pos rfl, BitVec.getLsbD_and]

/-! ## Additions -/

/-- Settles O35: an addition of kk. -/
theorem addByteWithCarry : Obligations.AddByteWithCarry := fun x kk s =>
  ⟨decode_encode (.addByte x kk), exec_writes_sum_then_carry (exec_addByte s x kk)⟩

/-- Settles O36: an addition of the old V[y]. -/
theorem addRegistersWithCarry : Obligations.AddRegistersWithCarry := fun x y s =>
  ⟨decode_encode (.addReg x y), exec_writes_sum_then_carry (exec_addReg s x y)⟩

/-! ## Subtractions -/

/-- Settles O37: the difference of V[x] and V[y]. -/
theorem subtractWithNotBorrow : Obligations.SubtractWithNotBorrow := by
  intro x y s
  obtain ⟨t, he, ht, hVF, hne, hx, hy, hself, hr⟩ := exec_writes_above_then_difference rfl (exec_sub s x y)
  refine ⟨t, he, ht, fun hxVF hyVF => ⟨hVF hxVF, hne hxVF hyVF⟩, ?_, ?_,
    fun hxVF hyVF => (hself (hxVF.trans hyVF.symm)).1, hr⟩
  · rintro rfl hyVF
    exact hx rfl hyVF
  · rintro hxVF rfl
    exact ⟨hVF hxVF, (hVF hxVF).symm ▸ hy hxVF rfl⟩

/-- Settles O38: the difference of V[y] and V[x]. -/
theorem reverseSubtractWithNotBorrow : Obligations.ReverseSubtractWithNotBorrow := by
  intro x y s
  obtain ⟨t, he, ht, hVF, hne, hy, hx, hself, hr⟩ := exec_writes_above_then_difference rfl (exec_subn s x y)
  refine ⟨t, he, ht, fun hxVF hyVF => ⟨hVF hxVF, hne hyVF hxVF⟩, ?_, ?_, fun hxy => hself hxy.symm, hr⟩
  · rintro rfl hyVF
    exact hx hyVF rfl
  · rintro hxVF rfl
    exact ⟨hVF hxVF, (hVF hxVF).symm ▸ hy rfl hxVF⟩

/-! ## Shifts -/

/-- Settles O39: for x = 15 the shift moves the lost bit, which 8XY6 loses and 8XYE doubles. -/
theorem shiftsByOne : Obligations.ShiftsByOne := by
  intro x s
  obtain ⟨t, he, ht, hVF, hx, hr⟩ := exec_writes_flag_then_result (exec_shr s x)
  obtain ⟨u, he', hu, hVF', hx', hr'⟩ := exec_writes_flag_then_result (exec_shl s x)
  refine ⟨⟨t, he, ht, fun hxVF => ⟨?_, ?_⟩, ?_, hr⟩, ⟨u, he', hu, fun hxVF => ⟨?_, ?_⟩, ?_, hr'⟩⟩
  · rw [hVF hxVF, toNat_lowBitFlag]
  · rw [hx, State.getV_setVF_of_ne hxVF, toNat_shiftRight_one]
  · rintro rfl
    refine BitVec.eq_of_toNat_eq ?_
    rw [hx, State.getV_setVF_self, toNat_shiftRight_one, toNat_lowBitFlag]
    exact Nat.div_eq_of_lt (Nat.mod_lt _ two_pos)
  · rw [hVF' hxVF, toNat_highBitFlag]
  · rw [hx', State.getV_setVF_of_ne hxVF, toNat_shiftLeft_one]
  · rintro rfl
    rw [hx', State.getV_setVF_self, toNat_shiftLeft_one, toNat_highBitFlag]
    omega

end Sys2Proof.Machine
end

section
/-! PROOFS for 42_index_memory.md. The three instructions that write I alone; then the two stores, from where each byte
of a store lands; then the load, which reads those bytes back. -/

namespace Sys2Proof.Machine

/-! ## The index register -/

/-- Settles O41, by the round trip of the word and the equation of ANNN. -/
theorem loadIndex : Obligations.LoadIndex := fun nnn s => ⟨decode_encode (.ldI nnn), exec_ldI s nnn⟩

/-- Five times a byte does not reach the width of I (R102). -/
theorem toNat_zext16_byte_mul_five (b : Byte) : (zext16 b * 5).toNat = b.toNat * 5 := by
  rw [BitVec.toNat_mul, zext16_toNat (by decide)]
  exact Nat.mod_eq_of_lt (show b.toNat * 5 < 2 ^ 16 by omega)

/-- Settles O42: the sum of FX1E wraps at the width of I, and the product of FX29 does not reach it. -/
theorem indexArithmetic : Obligations.IndexArithmetic := by
  refine fun x s => ⟨⟨_, exec_addIVx s x, rfl, ?_⟩, ⟨_, exec_ldFVx s x, rfl, toNat_zext16_byte_mul_five (s.getV x)⟩⟩
  rw [State.advance_i, State.setI_i, BitVec.toNat_add, zext16_toNat (by decide)]

/-! ## The stores -/

variable {i : Instr} {s : State}

/-- An instruction that accesses n bytes from I on takes no fault when they are all in range (R49). -/
theorem exec_of_access_in_range {n : Nat} {k : State → State} (h : exec i s = .next (withDataRange i n s k))
    (hn : s.i.toNat + n ≤ 0x1000) : exec i s = .next (k s) := by
  obtain ⟨-, hk⟩ | ⟨-, hgt, -⟩ := withDataRange_cases i n s k
  · rw [h, hk]
  · exact absurd hn hgt.not_ge

/-- Byte j of a store lands at j past its base (R58). -/
theorem State.read_writeBytes_add {bs : List Byte} {j : Nat} (a : Nat) (hj : j < bs.length) :
    (s.writeBytes a bs).read (a + j) = bs[j] := by
  rw [State.read_writeBytes, dif_pos ⟨by omega, by omega⟩]
  simp only [Nat.add_sub_cancel_left]

/-- An instruction that stores consecutive bytes from I on: where each byte lands, and what stays. -/
theorem exec_stores_bytes {bs : List Byte} (h : exec i s = .next (s.writeBytes s.i.toNat bs).advance) :
    ∃ t, exec i s = .next t ∧ t = { s with mem := t.mem, pc := s.pc + 2 } ∧
      (∀ j (hj : j < bs.length), t.read (s.i.toNat + j) = bs[j]) ∧
      ∀ a, a < s.i.toNat ∨ s.i.toNat + bs.length ≤ a → t.read a = s.read a :=
  ⟨_, h, rfl, fun _ hj => State.read_writeBytes_add _ hj, fun _ ha => State.read_writeBytes_outside ha⟩

/-- Settles O43: the three bytes of the store, each with its quotient or remainder as a number. -/
theorem decimalDigitsAreStored : Obligations.DecimalDigitsAreStored := by
  intro x s hi
  obtain ⟨t, he, ht, hread, hframe⟩ := exec_stores_bytes (exec_of_access_in_range (exec_ldBVx s x) (by omega))
  have h100 : t.read s.i.toNat = s.getV x / 100 := hread 0 (show 0 < 3 by decide)
  have h10 : t.read (s.i.toNat + 1) = s.getV x / 10 % 10 := hread 1 (show 1 < 3 by decide)
  have h1 : t.read (s.i.toNat + 2) = s.getV x % 10 := hread 2 (show 2 < 3 by decide)
  refine ⟨t, he, ht, ?_, ?_, ?_, hframe⟩
  · rw [h100]; exact BitVec.toNat_udiv
  · rw [h10, BitVec.toNat_umod, BitVec.toNat_udiv]; rfl
  · rw [h1]; exact BitVec.toNat_umod

/-- Settles O44: byte r of the store is V[r]. -/
theorem registersAreStored : Obligations.RegistersAreStored := by
  intro x s hi
  obtain ⟨t, he, ht, hread, hframe⟩ := exec_stores_bytes (exec_of_access_in_range (exec_ldMemVx s x) (by omega))
  rw [State.regsUpTo_length] at hframe
  refine ⟨t, he, ht, fun r hr => ?_, hframe⟩
  have hlen : r.val < (s.regsUpTo x).length := by rw [State.regsUpTo_length]; exact Nat.lt_succ_of_le hr
  rw [hread r.val hlen, State.regsUpTo_getElem]

/-! ## The load -/

/-- Settles O45, by what the load loop leaves in each register. -/
theorem registersAreLoaded : Obligations.RegistersAreLoaded := fun x s hi =>
  ⟨_, exec_of_access_in_range (exec_ldVxMem s x) (by omega), rfl, fun r => s.getV_loadRegsUpTo x r⟩

/-- Settles O46: the load reads each V[r] from the byte in which the store left it, as I and memory are the store's. -/
theorem loadRestoresStoredRegisters : Obligations.LoadRestoresStoredRegisters := by
  intro x s t u hi ht hmem hui
  obtain ⟨t', ht', -, hstored, -⟩ := registersAreStored x s hi
  cases ht'.symm.trans ht
  have hus : u.i = s.i := hui.trans (exec_index ht nofun nofun nofun)
  obtain ⟨w, hw, -, hloaded⟩ := registersAreLoaded x u (hus ▸ hi)
  refine ⟨w, hw, fun r hr => ?_⟩
  calc w.getV r = u.read (u.i.toNat + r.val) := by rw [hloaded, if_pos hr]
    _ = t.read (s.i.toNat + r.val) := by simp only [State.read, hmem, hus]
    _ = s.getV r := hstored r hr

end Sys2Proof.Machine
end

section
/-! PROOFS for 43_display.md. The clear first; then what the draw loop leaves on the display and in the collision, in
terms of the sprite's place on the torus; then the draw repeated, which XORs the same sprite twice. -/

namespace Sys2Proof.Machine

/-! ## The clear -/

/-- 00E0 has no operands and is no shift, so its word is its encoding alone (R71, R76). -/
theorem decode_eq_cls_iff (w : Word) : decode w = .ok .cls ↔ w = 0x00E0#16 := by
  constructor
  · intro h
    exact (encode_of_decode (i := .cls) (fun _ => ⟨nofun, nofun⟩) h).symm
  · rintro rfl
    exact decode_encode .cls

/-- Settles O48: the word by its round trip, and the blank display that 00E0 leaves. -/
theorem clearTurnsEveryPixelOff : Obligations.ClearTurnsEveryPixelOff :=
  ⟨decode_eq_cls_iff, fun s => ⟨_, exec_cls s, rfl, Display.pixel_blank⟩⟩

/-! ## The draw -/

section
variable (cx cy : Nat) (rows : Nat → Byte) {n : Nat} (d : Display)

/-- The draw loop XORs the sprite onto the display (R107 to R109). -/
theorem pixel_drawSprite (hn : n ≤ 32) (px : Fin 64) (py : Fin 32) :
    Display.pixel (drawSprite cx cy rows n d).1 px py = (d.pixel px py ^^ spriteCovers cx cy rows n px py) :=
  pixel_foldl_drawRow cx cy rows hn (d, false) px py

/-- The collision, which the draw loop starts from 0, is whether the sprite meets a lit pixel (R109). -/
theorem hit_drawSprite (hn : n ≤ 32) : (drawSprite cx cy rows n d).2 = true ↔
    ∃ px py, d.pixel px py = true ∧ spriteCovers cx cy rows n px py = true :=
  (hit_foldl_drawRow cx cy rows hn (d, false)).trans (or_iff_right Bool.false_ne_true)

end

theorem State.getV_showDraw_VF (s : State) (drawn : Display × Bool) : (s.showDraw drawn).getV VF = hitFlag drawn.2 :=
  State.getV_setVF_self

theorem State.getV_showDraw_of_ne (s : State) (drawn : Display × Bool) {r : Reg} (hr : r ≠ VF) :
    (s.showDraw drawn).getV r = s.getV r :=
  State.getV_setVF_of_ne (s := { s with disp := drawn.1, redraw := true }) hr

/-- A sprite has at most 15 rows, fewer than the display. -/
theorem nibble_toNat_le_rows (n : Nibble) : n.toNat ≤ 32 := by omega

/-- DXYN takes no fault when its rows are all in range (R107). -/
theorem exec_drw_of_rows_in_range {s : State} {x y : Reg} {n : Nibble}
    (hn : n.toNat = 0 ∨ s.i.toNat + (n.toNat - 1) ≤ 0xFFF) : exec (.drw x y n) s = .next (s.draw x y n).advance := by
  obtain ⟨-, he⟩ | ⟨hpos, hgt, -⟩ := exec_drw_cases s x y n
  · exact he
  · omega

/-- Settles O49: the draw loop's display and collision, and VF as the one register written. -/
theorem drawXorsTheSprite : Obligations.DrawXorsTheSprite := by
  intro x y n s hn
  have hrows := nibble_toNat_le_rows n
  refine ⟨_, exec_drw_of_rows_in_range hn, rfl, fun px py => ?_, ?_, fun r hr => ?_⟩
  · exact pixel_drawSprite _ _ _ s.disp hrows px py
  · exact (s.getV_showDraw_VF _).trans (if_congr (hit_drawSprite _ _ _ s.disp hrows) rfl rfl)
  · exact s.getV_showDraw_of_ne _ hr

/-! ## The draw repeated -/

/-- Whether the sprite that a draw in `s` reads has a set bit on a pixel (R107, R108). -/
def State.spriteOn (s : State) (x y : Reg) (n : Nibble) (px : Fin 64) (py : Fin 32) : Bool :=
  spriteCovers (s.getV x).toNat (s.getV y).toNat (fun r => s.read (s.i.toNat + r)) n.toNat px py

variable {s t : State} {x y : Reg} {n : Nibble}

/-- The sprite is read from V[x], V[y], I and memory alone. -/
theorem State.spriteOn_congr (hx : t.getV x = s.getV x) (hy : t.getV y = s.getV y) (hi : t.i = s.i)
    (hmem : t.mem = s.mem) : t.spriteOn x y n = s.spriteOn x y n := by
  funext px py
  simp only [State.spriteOn, State.read, hx, hy, hi, hmem]

/-- With its rows in range a draw XORs the sprite it finds onto every pixel (R107). -/
theorem exec_drw_pixel (hn : n.toNat = 0 ∨ s.i.toNat + (n.toNat - 1) ≤ 0xFFF) (h : exec (.drw x y n) s = .next t)
    (px : Fin 64) (py : Fin 32) :
    Display.pixel t.disp px py = (Display.pixel s.disp px py ^^ s.spriteOn x y n px py) := by
  obtain ⟨t', ht', -, hpixel, -⟩ := drawXorsTheSprite x y n s hn
  cases ht'.symm.trans h
  exact hpixel px py

/-- With a row out of range a draw faults and leaves the display (R107, R124). -/
theorem exec_drw_disp_of_rows_out_of_range (hn : ¬(n.toNat = 0 ∨ s.i.toNat + (n.toNat - 1) ≤ 0xFFF))
    (h : exec (.drw x y n) s = .next t) : t.disp = s.disp := by
  obtain ⟨hin, -⟩ | ⟨-, -, he⟩ := exec_drw_cases s x y n
  · omega
  · cases he.symm.trans h
    rfl

/-- Settles O50: a draw leaves I, memory, and V[x] and V[y] for x and y other than 15, so that the second draw is in range
exactly when the first is, and XORs the same sprite. -/
theorem drawTwiceRestoresTheDisplay : Obligations.DrawTwiceRestoresTheDisplay := by
  intro x y n s t u hx hy ht hu
  have hi : t.i = s.i := exec_index ht nofun nofun nofun
  have hmem : t.mem = s.mem := exec_mem ht nofun nofun
  have hvx : t.getV x = s.getV x := registerWriteSetsHold _ s t x ht (decide_eq_false hx)
  have hvy : t.getV y = s.getV y := registerWriteSetsHold _ s t y ht (decide_eq_false hy)
  by_cases hn : n.toNat = 0 ∨ s.i.toNat + (n.toNat - 1) ≤ 0xFFF
  · have hsprite : t.spriteOn x y n = s.spriteOn x y n := State.spriteOn_congr hvx hvy hi hmem
    refine Display.ext_pixel fun px py => ?_
    rw [exec_drw_pixel (hi ▸ hn) hu, exec_drw_pixel hn ht, hsprite, Bool.xor_assoc, Bool.xor_self, Bool.xor_false]
  · calc u.disp = t.disp := exec_drw_disp_of_rows_out_of_range (hi ▸ hn) hu
      _ = s.disp := exec_drw_disp_of_rows_out_of_range hn ht

end Sys2Proof.Machine
end

section
/-! PROOFS for 44_keypad_timer.md. The skips on a key from their cases and the timers' moves from their equations; then
FX0A from its two cases; then its wait over any number of cycles, one waiting cycle at a time. -/

namespace Sys2Proof.Machine

variable {s t u : State} {x : Reg} {k : Nat}

/-! ## Skips on a key -/

/-- Settles O51: with V[x] at most 15, the cases of EX9E and EXA1 that take no fault. -/
theorem keySkipsTestTheSnapshot : Obligations.KeySkipsTestTheSnapshot := by
  refine fun x s hx => ⟨?_, ?_⟩
  · obtain ⟨-, he⟩ | ⟨hgt, -⟩ := exec_skp_cases s x
    · exact he.trans (congrArg _ (State.skipIf_eq_of_iff Iff.rfl s))
    · exact absurd hx hgt.not_ge
  · obtain ⟨-, he⟩ | ⟨hgt, -⟩ := exec_sknp_cases s x
    · exact he.trans (congrArg _ (State.skipIf_eq_of_iff (Iff.of_eq (Bool.not_eq_true' _)) s))
    · exact absurd hx hgt.not_ge

/-! ## The timers' moves -/

/-- Settles O52: FX07 writes V[x] alone. -/
theorem delayTimerIsRead : Obligations.DelayTimerIsRead := fun x s => exec_writes_result (exec_ldVxDt s x)

/-- Settles O53, by the equations of FX15 and FX18. -/
theorem timersAreSet : Obligations.TimersAreSet := fun x s => ⟨exec_ldDtVx s x, exec_ldStVx s x⟩

/-! ## The key wait in execute -/

/-- The pressed keys are listed in rising order, so draw 0 picks the lowest (R9). -/
theorem keySelect_zero_le {keys : BitVec 16} {j : Nat} (hj : j ∈ pressedKeys keys) :
    keySelect 0 (pressedKeys keys) ≤ j := by
  have hrising : (pressedKeys keys).Pairwise (· < ·) := List.pairwise_lt_range.filter _
  cases hks : pressedKeys keys with
  | nil => rw [hks] at hj; cases hj
  | cons a ks =>
    rw [hks] at hj hrising
    rw [keySelect_zero]
    obtain rfl | hmem := List.mem_cons.mp hj
    · exact le_rfl
    · exact (List.rel_of_pairwise_cons hrising hmem).le

/-- FX0A with no key pressed changes nothing (R113). -/
theorem exec_ldVxK_of_no_key (hk : s.keys = 0) : exec (.ldVxK x) s = .next s := by
  obtain ⟨-, he⟩ | ⟨hne, -⟩ := exec_ldVxK_cases s x
  · exact he
  · exact absurd hk hne

/-- Settles O54: the two cases of FX0A; below the key that draw 0 picks no key is pressed. -/
theorem keyWaitCompletesOnAnyPressedKey : Obligations.KeyWaitCompletesOnAnyPressedKey := by
  refine fun x s => ⟨exec_ldVxK_of_no_key, fun hne => ?_⟩
  obtain ⟨hk, -⟩ | ⟨-, k, hlt, hpressed, hsel, he⟩ := exec_ldVxK_cases s x
  · exact absurd hk hne
  · obtain ⟨t, het, ht, hv⟩ := exec_writes_result he
    refine ⟨t, k, het, ht, hlt, hpressed, hv, fun hpick j hj => Bool.eq_false_iff.mpr fun hjp => ?_⟩
    have hle : keySelect 0 (pressedKeys s.keys) ≤ j :=
      keySelect_zero_le ((mem_pressedKeys _ _).mpr ⟨hj.trans hlt, hjp⟩)
    rw [hpick] at hsel
    omega

/-! ## The key wait over cycles -/

/-- The last of `k + 1` cycles runs from the state after `k` (R143). -/
theorem exists_last_step_of_afterCycles (h : afterCycles (k + 1) s = some t) :
    ∃ u, afterCycles k s = some u ∧ step u = .next t := by
  induction k generalizing s with
  | zero =>
    obtain ⟨v, hv, hrest⟩ := (afterCycles_succ 0 s t).mp h
    cases hrest
    exact ⟨s, rfl, hv⟩
  | succ k ih =>
    obtain ⟨v, hv, hrest⟩ := (afterCycles_succ (k + 1) s t).mp h
    obtain ⟨u, hu, hstep⟩ := ih hrest
    exact ⟨u, (afterCycles_succ k s u).mpr ⟨v, hv, hu⟩, hstep⟩

/-- `t` is `s` after `k` cycles of FX0A's wait: the timers have ticked, the registers that report on a cycle are
those of the last one, the host's side has moved on by `k` strobes, and all else is as it was (R113, R134). -/
structure State.Waited (s : State) (k : Nat) (t : State) : Prop where
  frame : t = { s with
    dt := t.dt, st := t.st, redraw := t.redraw, keys := t.keys, sndx := t.sndx, waiting := t.waiting,
    started := t.started, inputs := t.inputs, draws := t.draws }
  dt_toNat : t.dt.toNat = s.dt.toNat - k
  st_toNat : t.st.toNat = s.st.toNat - k
  inputs : t.inputs = s.inputs.drop k
  report : 0 < k → t.waiting = true ∧ t.redraw = false ∧ t.keys = 0

theorem State.Waited.zero (s : State) : s.Waited 0 s := ⟨rfl, rfl, rfl, rfl, nofun⟩

/-- One more cycle of the wait. -/
theorem State.Waited.succ (h : s.Waited k u) (h1 : u.Waited 1 t) : s.Waited (k + 1) t where
  frame := h1.frame.trans (by rw [h.frame])
  dt_toNat := by rw [h1.dt_toNat, h.dt_toNat, Nat.sub_sub]
  st_toNat := by rw [h1.st_toNat, h.st_toNat, Nat.sub_sub]
  inputs := by rw [h1.inputs, h.inputs, List.drop_drop]
  report := fun _ => h1.report Nat.one_pos

/-- A wait moves neither PC nor memory, so the next cycle fetches the same word. -/
theorem State.Waited.nextInstr_eq (h : s.Waited k t) : nextInstr t = nextInstr s := by
  have hpc : t.pc = s.pc := by rw [h.frame]
  have hmem : t.mem = s.mem := by rw [h.frame]
  rw [nextInstr, nextInstr, fetch_congr hpc hmem]

/-- A cycle that runs FX0A with no key pressed waits: execute changes nothing; the epilogue sets WAITING and ticks. -/
theorem step_waits (hr : s.faultCause = .none) (hn : nextInstr s = some (.ldVxK x)) (hk : s.keysIn = 0)
    (h : step s = .next t) : s.Waited 1 t := by
  obtain ⟨w, hf, hd⟩ := (nextInstr_eq_some_iff _ _).mp hn
  have he : exec (.ldVxK x) (prologue s) = .next (prologue s) := exec_ldVxK_of_no_key hk
  have hr' : (prologue s).faultCause = .none := hr
  have hstep := step_of_decode hr hf hd he
  rw [if_pos hr', epilogue_eq] at hstep
  cases hstep.symm.trans h
  exact ⟨rfl, toNat_tick s.dt, toNat_tick s.st, List.drop_one.symm, fun _ => ⟨decide_eq_true hk, rfl, hk⟩⟩

/-- A lined-up input is the next strobe's once those before it are used up (entry 2). -/
theorem State.Waited.keysIn_eq_zero (h : s.Waited k t) (hk : k < s.inputs.length)
    (hkeys : ∀ e ∈ s.inputs.take (k + 1), e.keys = 0) : t.keysIn = 0 := by
  have hin : t.inputs = s.inputs[k] :: s.inputs.drop (k + 1) := h.inputs.trans (List.drop_eq_getElem_cons hk)
  have hmem : s.inputs[k] ∈ s.inputs.take (k + 1) := List.mem_take_iff_getElem.mpr ⟨k, by omega, rfl⟩
  rw [State.keysIn, hin]
  exact hkeys _ hmem

/-- While each of the next `k` lined-up key masks is 0, FX0A waits for `k` cycles. -/
theorem afterCycles_waits (hr : s.faultCause = .none) (hn : nextInstr s = some (.ldVxK x)) (hk : k ≤ s.inputs.length)
    (hkeys : ∀ e ∈ s.inputs.take k, e.keys = 0) (h : afterCycles k s = some t) : s.Waited k t := by
  induction k generalizing t with
  | zero => cases h; exact .zero s
  | succ k ih =>
    obtain ⟨u, hu, hstep⟩ := exists_last_step_of_afterCycles h
    have hw : s.Waited k u := ih (by omega) (fun e he => hkeys e (List.take_subset_take_left _ k.le_succ he)) hu
    have hru : u.faultCause = .none := by rw [hw.frame]; exact hr
    exact hw.succ (step_waits hru (hw.nextInstr_eq.trans hn) (hw.keysIn_eq_zero hk hkeys) hstep)

/-- Settles O55: the frame of the wait, the timers' counts and the report of its last cycle. -/
theorem keyWaitHoldsUntilAKeyIsPressed : Obligations.KeyWaitHoldsUntilAKeyIsPressed := by
  intro k x s t hr hn hk hkeys h
  obtain ⟨hframe, hdt, hst, -, hreport⟩ := afterCycles_waits hr hn hk hkeys h
  rw [hframe]
  exact ⟨rfl, rfl, rfl, rfl, rfl, rfl, rfl, hr, rfl, rfl, rfl, hdt, hst, hreport⟩

end Sys2Proof.Machine
end

section
/-! PROOFS for 60_exceptions.md. First the two cases of execute, by whether the instruction's own condition holds; then
what a fault leaves of the state, in execute and over a cycle; then the timers in a cycle that completes. -/

namespace Sys2Proof.Machine

variable {i : Instr} {s t : State}

/-! ## When execute takes a fault -/

/-- What an instruction that takes its fault latches in FAULT_INFO (R119 to R122). -/
def faultInfoOf (s : State) : Instr → Word
  | .call _ => 16
  | .ret => 0
  | .skp x | .sknp x => zext16 (s.getV x)
  | _ => BitVec.ofNat 16 (max s.i.toNat 0x1000)

/-- Execute takes the instruction's own fault when its condition holds, and else leaves FAULT_CAUSE (R116, R123). -/
theorem exec_faultsOn_cases (i : Instr) (s : State) :
    (faultsOn s i ∧ exec i s = .next (raiseFault (faultOf i) (encode i) (faultInfoOf s i) s)) ∨
    (¬ faultsOn s i ∧ ∃ t, exec i s = .next t ∧ t.faultCause = s.faultCause) := by
  cases i with
  | call nnn =>
    obtain ⟨u, hlt, hu, -, -, he⟩ | hfault := exec_call_cases s nnn
    · have hoff : s.sp ≠ 16 := fun hsp => hlt.ne (congrArg Fin.val hsp)
      exact .inr ⟨hoff, _, he, by rw [hu]; rfl⟩
    · exact .inl hfault
  | ret =>
    obtain ⟨u, j, hu, hsucc, -, he⟩ | hfault := exec_ret_cases s
    · have hoff : s.sp ≠ 0 := fun hsp => Nat.succ_ne_zero _ (hsucc.trans (congrArg Fin.val hsp))
      exact .inr ⟨hoff, _, he, by rw [hu]; rfl⟩
    · exact .inl hfault
  | skp x =>
    obtain ⟨hle, he⟩ | hfault := exec_skp_cases s x
    · exact .inr ⟨hle.not_gt, _, he, rfl⟩
    · exact .inl hfault
  | sknp x =>
    obtain ⟨hle, he⟩ | hfault := exec_sknp_cases s x
    · exact .inr ⟨hle.not_gt, _, he, rfl⟩
    · exact .inl hfault
  | drw x y n =>
    obtain ⟨hin, he⟩ | ⟨hpos, hout, he⟩ := exec_drw_cases s x y n
    · exact .inr ⟨fun ⟨hpos, hout⟩ => by omega, _, he, rfl⟩
    · exact .inl ⟨⟨hpos, by omega⟩, he⟩
  | ldBVx x =>
    obtain ⟨hin, he⟩ | ⟨hout, he⟩ := exec_ldBVx_cases s x
    · exact .inr ⟨Nat.not_lt.mpr (Nat.le_of_succ_le_succ hin), _, he, rfl⟩
    · exact .inl ⟨Nat.lt_of_succ_lt_succ hout, he⟩
  | ldMemVx x =>
    obtain ⟨hin, he⟩ | ⟨hout, he⟩ := exec_ldMemVx_cases s x
    · exact .inr ⟨Nat.not_lt.mpr (Nat.le_of_succ_le_succ hin), _, he, rfl⟩
    · exact .inl ⟨Nat.lt_of_succ_lt_succ hout, he⟩
  | ldVxMem x =>
    obtain ⟨hin, he⟩ | ⟨hout, he⟩ := exec_ldVxMem_cases s x
    · exact .inr ⟨Nat.not_lt.mpr (Nat.le_of_succ_le_succ hin), _, he, rfl⟩
    · exact .inl ⟨Nat.lt_of_succ_lt_succ hout, he⟩
  | ldVxK x =>
    obtain ⟨-, he⟩ | ⟨-, k, -, -, -, he⟩ := exec_ldVxK_cases s x <;> exact .inr ⟨id, _, he, rfl⟩
  | cls | jp | seByte | sneByte | seReg | ldByte | addByte | ldReg | orReg | andReg | xorReg | addReg | sub | shr | subn
  | shl | sneReg | ldI | jpV0 | rnd | ldVxDt | ldDtVx | ldStVx | addIVx | ldFVx => exact .inr ⟨id, _, rfl, rfl⟩

/-- Only an instruction with a cause of its own has a condition that can hold (R123). -/
theorem faultOf_ne_of_faultsOn (hon : faultsOn s i) : faultOf i ≠ .none := by
  cases i with
  | call | ret | skp | sknp | drw | ldBVx | ldMemVx | ldVxMem => nofun
  | _ => exact hon.elim

/-- Settles O15: in the one case of execute the condition holds and the cause is the instruction's own, in the other
neither is there. -/
theorem instructionsFaultOnlyTheirOwnWay : Obligations.InstructionsFaultOnlyTheirOwnWay := by
  intro i s t hs h
  obtain ⟨hon, he⟩ | ⟨hoff, u, he, hu⟩ := exec_faultsOn_cases i s <;> cases he.symm.trans h
  · exact ⟨iff_of_true (faultOf_ne_of_faultsOn hon) hon, fun _ => rfl⟩
  · have hnone : t.faultCause = .none := hu.trans hs
    exact ⟨iff_of_false (absurd hnone) hoff, fun hne => absurd hnone hne⟩

/-! ## What a fault leaves of the state -/

/-- Under its condition an instruction is the fault entry and nothing else (R124). -/
theorem exec_of_faultsOn (hon : faultsOn s i) :
    exec i s = .next (raiseFault (faultOf i) (encode i) (faultInfoOf s i) s) :=
  ((exec_faultsOn_cases i s).resolve_right fun hoff => hoff.1 hon).2

/-- MEM_OOB latches the lowest out-of-range address (R119). -/
theorem faultInfoOf_of_memOob (hi : faultOf i = .memOob) :
    faultInfoOf s i = BitVec.ofNat 16 (max s.i.toNat 0x1000) := by
  cases i with
  | call | ret | skp | sknp => nomatch hi
  | _ => rfl

/-- Settles O16: under its condition each instruction is the fault entry on the state it started from. -/
theorem executeFaultsWriteOnlyTheFaultRegisters : Obligations.ExecuteFaultsWriteOnlyTheFaultRegisters := by
  refine ⟨fun i s hi hon => ?_, fun nnn s hsp => exec_of_faultsOn (i := .call nnn) hsp,
    fun s hsp => exec_of_faultsOn (i := .ret) hsp,
    fun x s hx => ⟨exec_of_faultsOn (i := .skp x) hx, exec_of_faultsOn (i := .sknp x) hx⟩⟩
  have he := exec_of_faultsOn hon
  rwa [hi, faultInfoOf_of_memOob hi] at he

/-- Settles O13: a faulting cycle is the fault entry on the prologue's state, and a completed one has no fault. -/
theorem faultsArePrecise : Obligations.FaultsArePrecise := by
  intro s t hr h ht
  obtain ⟨c, w, info, -, -, rfl⟩ | ⟨i, u, -, -, -, hu, rfl⟩ := step_faults_or_completes hr h
  · rfl
  · exact absurd ((epilogue_faultCause i u).trans hu) ht

/-! ## The timers in a completed cycle -/

/-- After a completed cycle DT is one less than execute left it (R69, R128). -/
theorem step_completed_dt (hr : s.faultCause = .none) (hn : nextInstr s = some i) (h : step s = .next t)
    (ht : t.faultCause = .none) : ∃ u, exec i (prologue s) = .next u ∧ t.dt.toNat = u.dt.toNat - 1 := by
  obtain ⟨u, he, -, rfl⟩ := step_completed hr hn h ht
  refine ⟨u, he, ?_⟩
  rw [epilogue_eq]
  exact toNat_tick u.dt

/-- Settles O17: execute leaves DT as it was, unless it is FX15. -/
theorem delayTimerTicksEveryCompletedCycle : Obligations.DelayTimerTicksEveryCompletedCycle := by
  intro s t i hr hn h ht
  obtain ⟨u, he, hdt⟩ := step_completed_dt hr hn h ht
  refine ⟨?_, fun hi => ?_⟩
  · rintro x rfl
    cases (exec_ldDtVx (prologue s) x).symm.trans he
    exact hdt
  · rwa [exec_delay he hi] at hdt

/-- After a completed cycle ST is one less than execute left it, and SNDX, which the prologue cleared, says whether that
took it from 1 to 0 (R65, R129). -/
theorem step_completed_st (hr : s.faultCause = .none) (hn : nextInstr s = some i) (h : step s = .next t)
    (ht : t.faultCause = .none) :
    ∃ u, exec i (prologue s) = .next u ∧ t.st.toNat = u.st.toNat - 1 ∧ t.sndx = decide (u.st = 1) := by
  obtain ⟨u, he, -, rfl⟩ := step_completed hr hn h ht
  have hsndx : u.sndx = false := (exec_sndx_and_host he).1
  refine ⟨u, he, ?_⟩
  rw [epilogue_eq]
  exact ⟨toNat_tick u.st, by simp [hsndx]⟩

/-- Settles O18: execute leaves ST as it was, unless it is FX18. -/
theorem soundTimerTicksAndSignalsExpiry : Obligations.SoundTimerTicksAndSignalsExpiry := by
  intro s t i hr hn h ht
  obtain ⟨u, he, hst⟩ := step_completed_st hr hn h ht
  refine ⟨?_, fun hi => ?_⟩
  · rintro x rfl
    cases (exec_ldStVx (prologue s) x).symm.trans he
    exact hst
  · rwa [exec_sound he hi] at hst

end Sys2Proof.Machine
end

section
/-! PROOFS for 70_reset_and_hazards.md. First that every step answers a next state; then the delay timer over any number
of cycles, one completed cycle at a time; then the load port; then the first cycle of a machine with no image. -/

namespace Sys2Proof.Machine

variable {s t : State}

/-! ## Every step answers -/

/-- Execute of every instruction answers a next state, its fault included (R124). -/
theorem exists_exec_eq_next (i : Instr) (s : State) : ∃ t, exec i s = .next t := by
  obtain ⟨-, he⟩ | ⟨-, t, he, -⟩ := exec_faultsOn_cases i s
  · exact ⟨_, he⟩
  · exact ⟨t, he⟩

/-- Every step answers a next state: a halted block's own, or what its fetch, its decoder or its execute leaves (R143). -/
theorem exists_step_eq_next (s : State) : ∃ t, step s = .next t := by
  by_cases hr : s.faultCause = .none
  · cases hf : fetch s with
    | error a => exact ⟨_, step_of_fetch_error hr hf⟩
    | ok w =>
      cases hd : decode w with
      | error e => exact ⟨_, step_of_decode_error hr hf hd⟩
      | ok i =>
        obtain ⟨u, he⟩ := exists_exec_eq_next i (prologue s)
        exact ⟨_, step_of_decode hr hf hd he⟩
  · exact ⟨s, step_halted hr⟩

/-- Settles O10, for the step from its stages and for execute from its two cases. -/
theorem everyStepAnswersANextState : Obligations.EveryStepAnswersANextState :=
  ⟨exists_step_eq_next, exists_exec_eq_next⟩

/-! ## The delay timer over cycles -/

/-- There is no return from a fault, so a block without one had none before the step (R63, R125). -/
theorem faultCause_eq_none_of_step (h : step s = .next t) (ht : t.faultCause = .none) : s.faultCause = .none := by
  by_contra hs
  cases (step_halted hs).symm.trans h
  exact hs ht

/-- A cycle that takes no fault ran an instruction (R64, R123). -/
theorem exists_nextInstr_of_step (h : step s = .next t) (ht : t.faultCause = .none) : ∃ i, nextInstr s = some i := by
  obtain ⟨c, w, info, hc, -, rfl⟩ | ⟨i, -, -, hn, -⟩ := step_faults_or_completes (faultCause_eq_none_of_step h ht) h
  · exact absurd ht hc
  · exact ⟨i, hn⟩

/-- A cycle that takes no fault and runs no FX15 takes one off DT, down to 0 (R128). -/
theorem step_dt_of_no_fault (h : step s = .next t) (ht : t.faultCause = .none)
    (hi : ∀ x, nextInstr s ≠ some (.ldDtVx x)) : t.dt.toNat = s.dt.toNat - 1 := by
  obtain ⟨i, hn⟩ := exists_nextInstr_of_step h ht
  have hticks := delayTimerTicksEveryCompletedCycle s t i (faultCause_eq_none_of_step h ht) hn h ht
  exact hticks.2 fun x hx => hi x (hx ▸ hn)

/-- Settles O56, by induction on the number of cycles, of which the last takes one more off DT. -/
theorem delayTimerCountsDownByTheCycle : Obligations.DelayTimerCountsDownByTheCycle := by
  intro k s t h ht hi
  induction k generalizing t with
  | zero => cases h; rfl
  | succ k ih =>
    obtain ⟨u, hu, hstep⟩ := exists_last_step_of_afterCycles h
    have hdt : u.dt.toNat = s.dt.toNat - k :=
      ih u hu (faultCause_eq_none_of_step hstep ht) fun j v x hj => hi j v x (by omega)
    rw [step_dt_of_no_fault hstep ht fun x => hi k u x k.lt_succ_self hu, hdt, Nat.sub_sub]

/-! ## The load port -/

/-- The loader refuses an image that does not fit above 0x200 (R137). -/
theorem State.loadImage_of_gt {image : List Byte} (h : 3584 < image.length) : s.loadImage image = none :=
  if_neg h.not_ge

/-- Before the first cycle an image that fits is stored from 0x200 on (R137). -/
theorem State.loadImage_of_not_started {image : List Byte} (h : image.length ≤ 3584) (hs : s.started = false) :
    s.loadImage image = some (s.writeBytes 0x200 image) := by
  rw [State.loadImage, if_pos h, hs]; rfl

/-- Once a cycle has run an image load changes nothing (R137). -/
theorem State.loadImage_of_started {image : List Byte} (h : image.length ≤ 3584) (hs : s.started = true) :
    s.loadImage image = some s := by
  rw [State.loadImage, if_pos h, if_pos hs]

/-- Before the first cycle the port stores one byte (R46). -/
theorem State.loadByte_of_not_started (a : Addr) (b : Byte) (hs : s.started = false) :
    s.loadByte a b = s.writeBytes a.toNat [b] := by
  rw [State.loadByte, hs]; rfl

/-- Once a cycle has run the port changes nothing (R46). -/
theorem State.loadByte_of_started (a : Addr) (b : Byte) (hs : s.started = true) : s.loadByte a b = s :=
  if_pos hs

/-- Every step of a running block counts as a cycle run, a faulting one too (entry 3). -/
theorem step_started (hr : s.faultCause = .none) (h : step s = .next t) : t.started = true := by
  obtain ⟨c, w, info, -, -, rfl⟩ | ⟨i, u, -, -, -, -, rfl⟩ := step_faults_or_completes hr h <;> rfl

/-- Settles O59: a load is a store of bytes, or nothing once a cycle has run. -/
theorem imageLoadIsVerbatimAndOnlyBeforeTheFirstCycle : Obligations.ImageLoadIsVerbatimAndOnlyBeforeTheFirstCycle := by
  refine fun s image => ⟨State.loadImage_of_gt, fun hlen hs => ?_, fun hs a b => ?_, fun hs => ?_,
    fun t => step_started⟩
  · exact ⟨_, State.loadImage_of_not_started hlen hs, rfl, s.read_writeBytes 0x200 image⟩
  · exact ⟨_, State.loadByte_of_not_started a b hs, rfl, fun a' => Memory.read_write s.mem a.toNat a' b⟩
  · exact ⟨fun hlen => State.loadImage_of_started hlen hs, fun a b => State.loadByte_of_started a b hs⟩

/-! ## A machine with no image -/

/-- A running block at 0x200 whose memory holds the zero word there takes the decode fault, since 0x0000 is no
instruction (R74, R138). -/
theorem step_of_zero_word_at_loadBase (hr : s.faultCause = .none) (hpc : s.pc = 0x200) (hhi : s.read 0x200 = 0)
    (hlo : s.read 0x201 = 0) : step s = .next (endStrobe (raiseFault .decode 0 0 (prologue s))) := by
  have hpc' : s.pc.toNat = 0x200 := congrArg BitVec.toNat hpc
  have hf : fetch s = .ok 0 := by rw [fetch_of_le (by omega), hpc', hhi, hlo]; rfl
  have hd : decode 0 = .error .family0 := by decide
  exact step_of_decode_error hr hf hd

/-- Settles O60: either reset leaves a running block at 0x200, and memory above FONT reads as 0. -/
theorem emptyMachineTakesTheDecodeFault : Obligations.EmptyMachineTakesTheDecodeFault := by
  intro font m hm
  obtain ⟨hr, hpc, hread⟩ : m.faultCause = .none ∧ m.pc = 0x200 ∧
      ∀ a, m.read a = if h : a < 80 then font[a] else 0 := by
    obtain rfl | ⟨s, rfl⟩ := hm
    · exact ⟨rfl, rfl, State.read_resetWith font⟩
    · exact ⟨rfl, rfl, State.read_assertReset font s⟩
  exact ⟨_, step_of_zero_word_at_loadBase hr hpc (hread 0x200) (hread 0x201), rfl, hpc, rfl, rfl, hpc, rfl, rfl⟩

end Sys2Proof.Machine
end
